-- ==== Sys2Proof/Word.lean ====
section
/-! DEFINITION. Word.lean: the machine's one kind of value. Every architectural value is a mathematical integer
(00_scope.md section 6.1); a word is one with at most six decimal digits (R1, R50). -/

namespace Sys2Proof

/-- `WORD_MAX` (R1): the largest magnitude of a word. -/
def wordMax : Int := 999999

/-- `inW(v)` (00_scope.md section 6.3): `v` is a word, a signed integer of at most six decimal digits. -/
abbrev inW (v : Int) : Prop := -wordMax ≤ v ∧ v ≤ wordMax

/-- The sign of an instruction word (R50); the decoder ignores it (R53). -/
inductive Sign where
  | plus
  | minus
  deriving DecidableEq, Repr

end Sys2Proof
end

