-- ==== Sys2Proof/Config.lean ====
section
/-! DEFINITION. Config.lean: the fixed numeric parameters (R1) and the two open parameters, `MEM_SIZE` (R2) and
`CAP` (R3). An open parameter is a field of `Config`, and every state carries its `Config`, so a statement over all
states is a statement over all parameter values (log entry 1). -/

namespace Sys2Proof

/-- `OPC_DIV` (R1): splits a word into opcode and operand. -/
def opcDiv : Nat := 10000
/-- `OPERAND_MAX` (R1). -/
def operandMax : Nat := 9999
/-- `PAGE_SIZE` (R1): words per page; the sequential advance wraps at this value. -/
def pageSize : Nat := 100
/-- `LOADIM_MOD` (R1). -/
def loadimMod : Int := 1000000
/-- `QUIRK_LOC` (R1): the literal location of BRANCHNEG's special case. -/
def quirkLoc : Nat := 3
/-- `ENTRY` (R1): execution starts at location 0. -/
def entry : Nat := 0

/-- The open parameters. `cap = none` is `CAP` = infinity (R3). -/
structure Config where
  memSize : Nat
  cap     : Option Nat
  deriving DecidableEq, Repr

/-- R3: the magnitude `v` may have in one storage element. -/
def Config.holds (c : Config) (v : Int) : Bool :=
  match c.cap with
  | none   => true
  | some n => decide (v.natAbs ≤ n)

/-- R2 and R3: `MEM_SIZE` is a positive multiple of `PAGE_SIZE`, and `CAP` is greater than `WORD_MAX`. -/
def Config.wf (c : Config) : Bool :=
  decide (0 < c.memSize) && decide (c.memSize % pageSize = 0) &&
    match c.cap with
    | none   => true
    | some n => decide (wordMax < (n : Int))

/-- The reference values of R2 and R3 (DESIGN CHOICE to use them in `State.reset`, log entry 1). -/
def Config.reference : Config := { memSize := 10000, cap := some 2147483647 }

end Sys2Proof
end

