-- ==== Sys2Proof/Syntax.lean ====
section
/-! DEFINITION. Syntax.lean: the 23 instructions of spec/opcode_table.json (R55), one constructor a row. -/

namespace Sys2Proof

/-- An instruction with its four operand digits (R50, R54). Class A carries the absolute location, class T the branch
target, class P the two page fields; classes N and V carry the digits that the instruction does not use as an operand
(class N ignores them, LOADIM copies the whole raw word from `ir`). -/
inductive Instr where
  | read       (addr : Nat)                -- 10, R90
  | write      (addr : Nat)                -- 11, R91
  | load       (addr : Nat)                -- 20, R100
  | loadim     (digits : Nat)              -- 21, R101
  | loadx      (addr : Nat)                -- 22, R102
  | loadidx    (digits : Nat)              -- 23, R103
  | store      (addr : Nat)                -- 25, R104
  | storeidx   (digits : Nat)              -- 26, R105
  | add        (addr : Nat)                -- 30, R111
  | addx       (digits : Nat)              -- 31, R112
  | subtract   (addr : Nat)                -- 32, R113
  | subtractx  (digits : Nat)              -- 33, R114
  | divide     (addr : Nat)                -- 34, R115
  | dividex    (digits : Nat)              -- 35, R116
  | multiply   (addr : Nat)                -- 36, R117
  | multiplyx  (digits : Nat)              -- 37, R118
  | inc        (digits : Nat)              -- 38, R130
  | dec        (digits : Nat)              -- 39, R131
  | branch     (target : Nat)              -- 40, R140
  | branchneg  (target : Nat)              -- 41, R141
  | branchzero (target : Nat)              -- 42, R142
  | swap       (digits : Nat)              -- 43, R132
  | halt       (startPage endPage : Nat)   -- 45, R150
  deriving DecidableEq, Repr

end Sys2Proof
end

