-- ==== Sys2Proof/WellFormed.lean ====
section
/-! DEFINITION. WellFormed.lean: which terms of `Instr` are instructions the encoding can hold (R50, R54). -/

namespace Sys2Proof

/-- Four operand digits: 0..9999 (R50). -/
def fourDigits (p : Nat) : Bool := decide (p ≤ operandMax)

/-- A page field of HALT: two digits, 0..99 (R54 class P). -/
def twoDigits (p : Nat) : Bool := decide (p < pageSize)

/-- Every operand fits its field of the word. -/
def Instr.wf : Instr → Bool
  | .read a       => fourDigits a
  | .write a      => fourDigits a
  | .load a       => fourDigits a
  | .loadim v     => fourDigits v
  | .loadx a      => fourDigits a
  | .loadidx x    => fourDigits x
  | .store a      => fourDigits a
  | .storeidx x   => fourDigits x
  | .add a        => fourDigits a
  | .addx x       => fourDigits x
  | .subtract a   => fourDigits a
  | .subtractx x  => fourDigits x
  | .divide a     => fourDigits a
  | .dividex x    => fourDigits x
  | .multiply a   => fourDigits a
  | .multiplyx x  => fourDigits x
  | .inc x        => fourDigits x
  | .dec x        => fourDigits x
  | .branch t     => fourDigits t
  | .branchneg t  => fourDigits t
  | .branchzero t => fourDigits t
  | .swap x       => fourDigits x
  | .halt p q     => twoDigits p && twoDigits q

end Sys2Proof
end

