-- ==== Sys2Proof/Decode.lean ====
section
/-! DEFINITION. Decode.lean: the decoder (R51, R55, R56), the encoder (R52) and the BCD view of the opcode table (R62). -/

namespace Sys2Proof

/-- R51: `opcode = |w| div 10000`. -/
def opcodeOf (w : Int) : Nat := w.natAbs / opcDiv

/-- R51: `operand = |w| mod 10000`. -/
def operandOf (w : Int) : Nat := w.natAbs % opcDiv

/-- R150: `startPage = operand div 100`. -/
def startPageOf (operand : Nat) : Nat := operand / pageSize

/-- R150: `endPage = operand mod 100`. -/
def endPageOf (operand : Nat) : Nat := operand % pageSize

/-- What the decoder answers: one of the 23 instructions, or an opcode value outside the recognised set (R74). -/
inductive Decoded where
  | known   (i : Instr)
  | unknown (code : Nat)
  deriving DecidableEq, Repr

/-- R55: the opcode map, with the catch-all of R56 and R58. -/
def decodeFields (opcode operand : Nat) : Decoded :=
  match opcode with
  | 10 => .known (.read operand)
  | 11 => .known (.write operand)
  | 20 => .known (.load operand)
  | 21 => .known (.loadim operand)
  | 22 => .known (.loadx operand)
  | 23 => .known (.loadidx operand)
  | 25 => .known (.store operand)
  | 26 => .known (.storeidx operand)
  | 30 => .known (.add operand)
  | 31 => .known (.addx operand)
  | 32 => .known (.subtract operand)
  | 33 => .known (.subtractx operand)
  | 34 => .known (.divide operand)
  | 35 => .known (.dividex operand)
  | 36 => .known (.multiply operand)
  | 37 => .known (.multiplyx operand)
  | 38 => .known (.inc operand)
  | 39 => .known (.dec operand)
  | 40 => .known (.branch operand)
  | 41 => .known (.branchneg operand)
  | 42 => .known (.branchzero operand)
  | 43 => .known (.swap operand)
  | 45 => .known (.halt (startPageOf operand) (endPageOf operand))
  | c  => .unknown c

/-- R51, R72: the decoder, total on every integer, cells that are not words included (R58). -/
def decode (w : Int) : Decoded := decodeFields (opcodeOf w) (operandOf w)

/-- R55: the opcode of each instruction. -/
def Instr.opcode : Instr → Nat
  | .read _       => 10
  | .write _      => 11
  | .load _       => 20
  | .loadim _     => 21
  | .loadx _      => 22
  | .loadidx _    => 23
  | .store _      => 25
  | .storeidx _   => 26
  | .add _        => 30
  | .addx _       => 31
  | .subtract _   => 32
  | .subtractx _  => 33
  | .divide _     => 34
  | .dividex _    => 35
  | .multiply _   => 36
  | .multiplyx _  => 37
  | .inc _        => 38
  | .dec _        => 39
  | .branch _     => 40
  | .branchneg _  => 41
  | .branchzero _ => 42
  | .swap _       => 43
  | .halt _ _     => 45

/-- R54: the four operand digits of each instruction as one number. -/
def Instr.operand : Instr → Nat
  | .read a       => a
  | .write a      => a
  | .load a       => a
  | .loadim v     => v
  | .loadx a      => a
  | .loadidx x    => x
  | .store a      => a
  | .storeidx x   => x
  | .add a        => a
  | .addx x       => x
  | .subtract a   => a
  | .subtractx x  => x
  | .divide a     => a
  | .dividex x    => x
  | .multiply a   => a
  | .multiplyx x  => x
  | .inc x        => x
  | .dec x        => x
  | .branch t     => t
  | .branchneg t  => t
  | .branchzero t => t
  | .swap x       => x
  | .halt p q     => p * pageSize + q

/-- The factor `s` of R52. -/
def signFactor : Sign → Int
  | .plus  => 1
  | .minus => -1

/-- R52: `pack(s, o, p) = s * (o*10000 + p)`. -/
def pack (s : Sign) (o p : Nat) : Int := signFactor s * ((o * opcDiv + p : Nat) : Int)

/-- The word of an instruction, in either sign (R52, R53). -/
def encode (s : Sign) (i : Instr) : Int := pack s i.opcode i.operand

/-- Digit `k` of the magnitude in the BCD view: bits `4k+3 .. 4k` (R62). -/
def bcdDigit (w k : Nat) : Nat := w / 16 ^ k % 16

/-- R62: the word a BCD view shows (bit 24 the sign, six 4-bit decimal digits below it). DESIGN CHOICE (log entry 13): a
pattern that is the view of no word shows no word; these are the patterns with a digit above nine, those with a bit above
24, and 0x1000000, the sign with six digits 0 (R62 sets bit 24 only when the word is negative). -/
def wordOfBcd (w : Nat) : Option Int :=
  let d := bcdDigit w
  if w < 2 ^ 25 ∧ w ≠ 2 ^ 24 ∧ d 0 ≤ 9 ∧ d 1 ≤ 9 ∧ d 2 ≤ 9 ∧ d 3 ≤ 9 ∧ d 4 ≤ 9 ∧ d 5 ≤ 9 then
    let m : Nat := d 5 * 100000 + d 4 * 10000 + d 3 * 1000 + d 2 * 100 + d 1 * 10 + d 0
    some (if w / 2 ^ 24 = 1 then -(m : Int) else (m : Int))
  else none

/-- R62: `bcd(w)`, the BCD view of a word. -/
def bcdOfWord (w : Int) : Nat :=
  let m := w.natAbs
  (if w < 0 then 2 ^ 24 else 0) + (m / 100000 % 10) * 16 ^ 5 + (m / 10000 % 10) * 16 ^ 4 + (m / 1000 % 10) * 16 ^ 3
    + (m / 100 % 10) * 16 ^ 2 + (m / 10 % 10) * 16 + m % 10

/-- The word that the first `nbits` bits of a row of spec/opcode_table.json show, every bit above them zero. -/
def tableWord (nbits w : Nat) : Option Int := wordOfBcd (w % 2 ^ nbits)

/-- The instruction the decoder reads from an instruction whose bits, numbered as spec/opcode_table.json numbers them
(R62), are `w`. -/
def decodeTableWord (nbits w : Nat) : Option Instr :=
  match tableWord nbits w with
  | none   => none
  | some v =>
    match decode v with
    | .known i   => some i
    | .unknown _ => none

end Sys2Proof
end

