-- ==== Sys2Proof/Machine/State.lean ====
section
/-! DEFINITION. Machine/State.lean: the state of the engine (R10), with the parameters and the environment a step is a
function of, the outcomes' reasons, and the state right after reset (R24, R210). -/

namespace Sys2Proof.Machine

/-- The four kinds of fault of R180: no other exists. -/
inductive FaultKind where
  | unknownOpcode
  | outOfRangeAccess
  | divisionByZero
  | accumulatorOverflow
  deriving DecidableEq, Repr

/-- R19's `status`, and `idle`, the engine between `reset` and `start` (R161, R210; DEDUCED, log entry 2). -/
inductive Status where
  /-- Between `reset` and `start`: no cycle, the loader port is open (R161, R210). -/
  | idle
  /-- The engine performs cycles (R19). -/
  | running
  /-- A HALT was executed, with its two page fields (R19, R150). -/
  | haltedNormal (startPage endPage : Nat)
  /-- A fault ended the run: its kind, its info, and `at`, the location of the faulting instruction (R182). -/
  | haltedFault (kind : FaultKind) (info : Int) (loc : Nat)
  deriving DecidableEq, Repr

/-- What crosses the event ports (R164 to R167). -/
inductive Event where
  /-- `Trace(loc, word, opc, opd)` (R166). -/
  | trace (loc : Nat) (word : Int) (opcode operand : Nat)
  /-- The input request of a READ (R164). -/
  | inputRequest
  /-- The consumption of one input value (R164). -/
  | input (v : Int)
  /-- `Output(v)` (R165). -/
  | output (v : Int)
  deriving DecidableEq, Repr

/-- Memory: (location, value) pairs, locations strictly rising, no value 0 listed; a location not listed holds 0, the
value of reset (R24). A cell holds a whole integer, never bytes (R34; log entry 3). -/
abbrev Memory := List (Nat × Int)

/-- The state. `mem`, `acc`, `xr`, `ic`, `ir`, `status` are R10's six-tuple; `cfg` holds the parameters of R2 and R3,
which no step and no host move changes; `input` and `events` are the environment's side of the ports (R164 to R167). -/
structure State where
  /-- `MEM_SIZE` and `CAP` (R2, R3). -/
  cfg    : Config
  /-- The memory array (R30). -/
  mem    : Memory
  /-- The accumulator (R11). -/
  acc    : Int
  /-- The index register (R12). -/
  xr     : Int
  /-- The instruction counter (R14). -/
  ic     : Nat
  /-- The instruction register: the raw word last fetched (R18). -/
  ir     : Int
  /-- The running-flag, widened (R19). -/
  status : Status
  /-- What the input source holds and READ has not consumed, oldest first (R164). -/
  input  : List Int
  /-- The history of port events, oldest first (R167); no instruction reads it (R165). -/
  events : List Event
  deriving DecidableEq, Repr

/-- Why a step gives no next state although every instruction has its meaning. -/
inductive Fault where
  /-- Raised by `step` alone, in a state whose status is `haltedNormal` or `haltedFault`: the run has ended, no cycle
  exists (R70, R81). SAFE: the hardware has no step there either (log entry 5). -/
  | runEnded
  deriving DecidableEq, Repr

/-- Situations the spec tells a model to refuse (R197): neither a halt nor one of the four faults. -/
inductive Refusal where
  /-- An arm of `exec` without a meaning; no arm is left so. SAFE. -/
  | notModelled (mnemonic : String)
  /-- Raised by INC at `xr = CAP` and DEC at `xr = -CAP` (R133, U2). SAFE: the spec gives no result (log entry 7). -/
  | indexCapacity
  /-- Raised by READ when the value the source delivers is not a word (U4). SAFE (log entry 6). -/
  | inputOutOfRange
  deriving DecidableEq, Repr

/-- What a meaning answers. -/
abbrev Result := Host.Outcome State Fault Refusal

/-- R24, R210: the state right after `reset`, for given parameters: every register and every cell zero, the engine idle.
The queues of the environment are empty (DESIGN CHOICE, log entry 15). -/
def State.resetWith (c : Config) : State :=
  { cfg := c, mem := [], acc := 0, xr := 0, ic := entry, ir := 0, status := .idle, input := [], events := [] }

/-- The state right after `reset`, at the spec's reference parameters (log entry 1). -/
def State.reset : State := State.resetWith Config.reference

end Sys2Proof.Machine
end

