-- ==== Sys2Proof/Machine/Memory.lean ====
section
/-! DEFINITION. Machine/Memory.lean: reading and writing one location of the array, and its canonical form. -/

namespace Sys2Proof.Machine

/-- The value held at a location; a location not listed holds 0 (R24). -/
def Memory.read : Memory → Nat → Int
  | [], _ => 0
  | (b, u) :: m, a => if a = b then u else Memory.read m a

/-- `mem[a] <- v` (R32), keeping the canonical form: writing 0 removes the entry. -/
def Memory.write : Memory → Nat → Int → Memory
  | [], a, v => if v = 0 then [] else [(a, v)]
  | (b, u) :: m, a, v =>
    if a < b then (if v = 0 then (b, u) :: m else (a, v) :: (b, u) :: m)
    else if a = b then (if v = 0 then m else (a, v) :: m)
    else (b, u) :: Memory.write m a v

/-- The canonical form: locations strictly rising, no listed value equal to what an unlisted location holds. -/
abbrev Memory.wf (m : Memory) : Prop := m.Pairwise (fun c d => c.1 < d.1) ∧ ∀ c ∈ m, c.2 ≠ 0

end Sys2Proof.Machine
end

