-- ==== Sys2Proof/Machine/Flags.lean ====
section
/-! DEFINITION. Machine/Flags.lean: the machine has no flags (R17). What stands in their place is here: the two
conditions the branches test on the accumulator, the overflow condition, and the two roundings of division. -/

namespace Sys2Proof.Machine

/-- BRANCHNEG's condition (R141): `acc < 0`. -/
abbrev isNegative (v : Int) : Prop := v < 0

/-- BRANCHZERO's condition (R142): `acc = 0`. -/
abbrev isZero (v : Int) : Prop := v = 0

/-- The condition of `CheckOverflow()` (R110), on the exact result. -/
abbrev overflows (v : Int) : Prop := v > 999999 ∨ v < -999999

/-- `tdiv(a, b)` (00_scope.md section 6.3, R119): the quotient truncated toward zero. -/
def tdiv (a b : Int) : Int := a.sign * b.sign * ((a.natAbs / b.natAbs : Nat) : Int)

/-- `trem(a, b)` (00_scope.md section 6.3): the remainder with the sign of the dividend. -/
def trem (a b : Int) : Int := a - b * tdiv a b

end Sys2Proof.Machine
end

