-- ==== Sys2Proof/Machine/Ops.lean ====
section
/-! DEFINITION. Machine/Ops.lean: the named operations every meaning is made of: register writes, the sequential
advance, the one operation that takes a fault, the bounds-checked memory accesses, events, and the fetch's own effect.
There is no return from a fault (R191), so no operation stands beside `State.raise` for it. -/

namespace Sys2Proof.Machine

/-- `acc <- v`. -/
def State.setAcc (s : State) (v : Int) : State := { s with acc := v }

/-- `xr <- v`. -/
def State.setXr (s : State) (v : Int) : State := { s with xr := v }

/-- `ic <- target`. -/
def State.setIc (s : State) (target : Nat) : State := { s with ic := target }

/-- `status <- st`. -/
def State.setStatus (s : State) (st : Status) : State := { s with status := st }

/-- `mem[a] <- v` for a location that exists. -/
def State.setMem (s : State) (a : Nat) (v : Int) : State := { s with mem := s.mem.write a v }

/-- Append one event to the history (R165 to R167). -/
def State.emit (s : State) (e : Event) : State := { s with events := s.events ++ [e] }

/-- The input source after one value has been consumed (R164). -/
def State.setInput (s : State) (rest : List Int) : State := { s with input := rest }

/-- `Advance()` (R75): the sequential successor of a location. -/
def nextIc (ic : Nat) : Nat := if ic + 1 ≥ pageSize then 0 else ic + 1

/-- `ic <- Advance()`. -/
def State.advance (s : State) : State := s.setIc (nextIc s.ic)

/-- `raise kind(info)` (R181, R182): taking a fault. The status carries the kind, the info and `at = ic`; nothing is
saved, `ic` stays, and no handler is entered (R189). What the step wrote before stays written. -/
def State.raise (s : State) (kind : FaultKind) (info : Int) : State := s.setStatus (.haltedFault kind info s.ic)

/-- A location of the array (R31, R32): `0 <= a < MEM_SIZE`. -/
abbrev State.inMemory (s : State) (a : Int) : Prop := 0 ≤ a ∧ a < (s.cfg.memSize : Int)

/-- `MemRead(a)` (R31), continued by `k` with the value read. -/
def State.memRead (s : State) (a : Int) (k : Int → Result) : Result :=
  if s.inMemory a then k (s.mem.read a.toNat) else .next (s.raise .outOfRangeAccess a)

/-- `MemWrite(a, v)` (R32), continued by `k` with the state after the write. The value is not checked. -/
def State.memWrite (s : State) (a : Int) (v : Int) (k : State → Result) : Result :=
  if s.inMemory a then k (s.setMem a.toNat v) else .next (s.raise .outOfRangeAccess a)

/-- `acc <- v; CheckOverflow(); ic <- Advance()` (R110): the end of the six checked arithmetic instructions. -/
def State.finishChecked (s : State) (v : Int) : Result :=
  if overflows v then .next ((s.setAcc v).raise .accumulatorOverflow v) else .next (s.setAcc v).advance

/-- `if m = 0 then raise DivisionByZero(ic); acc <- tdiv(acc, m); ic <- Advance()` (R115, R116). -/
def State.finishDivide (s : State) (m : Int) : Result :=
  if m = 0 then .next (s.raise .divisionByZero s.ic) else .next (s.setAcc (tdiv s.acc m)).advance

/-- The effect of a fetch that succeeded and of the decode's trace event (R71, R73): `ir <- w`, one trace event. -/
def State.fetched (s : State) (w : Int) : State :=
  ({ s with ir := w } : State).emit (.trace s.ic w (opcodeOf w) (operandOf w))

/-- R79, R90: a READ whose location exists, with no input value available. -/
def State.blocked (s : State) (addr : Nat) : Bool := decide (s.inMemory addr) && s.input.isEmpty

/-- R79: the one instruction that can wait is READ. -/
def State.waits (s : State) : Instr → Bool
  | .read a       => s.blocked a
  | .write _      => false
  | .load _       => false
  | .loadim _     => false
  | .loadx _      => false
  | .loadidx _    => false
  | .store _      => false
  | .storeidx _   => false
  | .add _        => false
  | .addx _       => false
  | .subtract _   => false
  | .subtractx _  => false
  | .divide _     => false
  | .dividex _    => false
  | .multiply _   => false
  | .multiplyx _  => false
  | .inc _        => false
  | .dec _        => false
  | .branch _     => false
  | .branchneg _  => false
  | .branchzero _ => false
  | .swap _       => false
  | .halt _ _     => false

end Sys2Proof.Machine
end

