-- ==== Sys2Proof/Machine/Operands.lean ====
section
/-! DEFINITION. Machine/Operands.lean: the two addressing modes for data (42_load_store.md) and what each gives. -/

namespace Sys2Proof.Machine

/-- Absolute: the address is the four-digit operand, unsigned, unscaled (R54 class A). -/
def absolute (operand : Nat) : Int := (operand : Int)

/-- Index: the address is the integer in `xr`, unmodified and unscaled (R12); never `xr + operand` (R54). -/
def State.indexed (s : State) : Int := s.xr

/-- The second source of the plain forms, the LOADs and WRITE: `MemRead(operand)`. -/
def State.readAbsolute (s : State) (operand : Nat) (k : Int → Result) : Result := s.memRead (absolute operand) k

/-- The second source of the X-forms and LOADIDX: `MemRead(xr)`. -/
def State.readIndexed (s : State) (k : Int → Result) : Result := s.memRead s.indexed k

end Sys2Proof.Machine
end

