-- ==== Sys2Proof/Machine/Arithmetic.lean ====
section
/-! DEFINITION. Machine/Arithmetic.lean: the eight accumulator instructions (43_arithmetic.md). The X-form of each
differs from the plain form in nothing but the address. -/

namespace Sys2Proof.Machine

/-- ADD (R111). -/
def execAdd (addr : Nat) (s : State) : Result := s.readAbsolute addr fun m => s.finishChecked (s.acc + m)

/-- ADDX (R112). -/
def execAddx (s : State) : Result := s.readIndexed fun m => s.finishChecked (s.acc + m)

/-- SUBTRACT (R113): accumulator minus memory, in this order. -/
def execSubtract (addr : Nat) (s : State) : Result := s.readAbsolute addr fun m => s.finishChecked (s.acc - m)

/-- SUBTRACTX (R114). -/
def execSubtractx (s : State) : Result := s.readIndexed fun m => s.finishChecked (s.acc - m)

/-- DIVIDE (R115): no overflow check; a zero divisor faults. -/
def execDivide (addr : Nat) (s : State) : Result := s.readAbsolute addr fun m => s.finishDivide m

/-- DIVIDEX (R116). -/
def execDividex (s : State) : Result := s.readIndexed fun m => s.finishDivide m

/-- MULTIPLY (R117): the exact product is checked. -/
def execMultiply (addr : Nat) (s : State) : Result := s.readAbsolute addr fun m => s.finishChecked (s.acc * m)

/-- MULTIPLYX (R118). -/
def execMultiplyx (s : State) : Result := s.readIndexed fun m => s.finishChecked (s.acc * m)

end Sys2Proof.Machine
end

