-- ==== Sys2Proof/Machine/Branch.lean ====
section
/-! DEFINITION. Machine/Branch.lean: BRANCH, BRANCHNEG, BRANCHZERO (45_branch.md). The target is not checked by the
branch; a target outside memory faults at the next fetch (R143). -/

namespace Sys2Proof.Machine

/-- BRANCH (R140): `ic <- operand`, no advance. -/
def execBranch (target : Nat) (s : State) : Result := .next (s.setIc target)

/-- BRANCHNEG (R141), with the location-3 quirk when it is not taken. -/
def execBranchneg (target : Nat) (s : State) : Result :=
  if isNegative s.acc then .next (s.setIc target)
  else if s.ic = quirkLoc then .next (s.setIc 0)
  else .next s.advance

/-- BRANCHZERO (R142): no quirk anywhere. -/
def execBranchzero (target : Nat) (s : State) : Result :=
  if isZero s.acc then .next (s.setIc target) else .next s.advance

end Sys2Proof.Machine
end

