-- ==== Sys2Proof/Machine/Halt.lean ====
section
/-! DEFINITION. Machine/Halt.lean: HALT (46_halt.md). -/

namespace Sys2Proof.Machine

/-- HALT (R150): the run ends normally with the two page fields, unchecked; `ic` is not advanced. Entering this status is
the dump request (R151). -/
def execHalt (startPage endPage : Nat) (s : State) : Result := .next (s.setStatus (.haltedNormal startPage endPage))

end Sys2Proof.Machine
end

