-- ==== Sys2Proof/Machine/Index.lean ====
section
/-! DEFINITION. Machine/Index.lean: INC, DEC, SWAP (44_index.md). -/

namespace Sys2Proof.Machine

/-- R133: `v` is the capacity `CAP`; never so with `CAP` = infinity. -/
def atCapacity (c : Config) (v : Int) : Bool :=
  match c.cap with
  | none   => false
  | some n => decide (v = (n : Int))

/-- INC (R130): never range-checked; at `xr = CAP` the model refuses (R133). -/
def execInc (s : State) : Result :=
  if atCapacity s.cfg s.xr then .refused .indexCapacity else .next (s.setXr (s.xr + 1)).advance

/-- DEC (R131): never range-checked; at `xr = -CAP` the model refuses (R133). -/
def execDec (s : State) : Result :=
  if atCapacity s.cfg (-s.xr) then .refused .indexCapacity else .next (s.setXr (s.xr - 1)).advance

/-- SWAP (R132): both registers take the other's old value, unchecked. -/
def execSwap (s : State) : Result := .next ((s.setAcc s.xr).setXr s.acc).advance

end Sys2Proof.Machine
end

