-- ==== Sys2Proof/Machine/InputOutput.lean ====
section
/-! DEFINITION. Machine/InputOutput.lean: READ and WRITE (41_io.md). -/

namespace Sys2Proof.Machine

/-- READ (R90): the address is checked before the input is requested; then one value is consumed and stored. With no
value available nothing changes (R79); a value that is not a word is refused (U4, log entry 6). -/
def execRead (addr : Nat) (s : State) : Result :=
  s.readAbsolute addr fun _ =>
    match s.input with
    | []        => .next s
    | v :: rest =>
      if inW v then
        (((s.setInput rest).emit .inputRequest).emit (.input v)).memWrite (absolute addr) v fun t => .next t.advance
      else .refused .inputOutOfRange

/-- WRITE (R91): `Output(MemRead(operand))`. -/
def execWrite (addr : Nat) (s : State) : Result :=
  s.readAbsolute addr fun v => .next (s.emit (.output v)).advance

end Sys2Proof.Machine
end

