-- ==== Sys2Proof/Machine/LoadStore.lean ====
section
/-! DEFINITION. Machine/LoadStore.lean: LOAD, LOADIM, LOADX, LOADIDX, STORE, STOREIDX (42_load_store.md). -/

namespace Sys2Proof.Machine

/-- LOAD (R100): `acc <- MemRead(operand)`. -/
def execLoad (addr : Nat) (s : State) : Result :=
  s.readAbsolute addr fun v => .next (s.setAcc v).advance

/-- LOADIM (R101): `acc <- trem(ir, 1000000)`, the whole raw word with its sign. -/
def execLoadim (s : State) : Result := .next (s.setAcc (trem s.ir loadimMod)).advance

/-- LOADX (R102): `xr <- MemRead(operand)`. -/
def execLoadx (addr : Nat) (s : State) : Result :=
  s.readAbsolute addr fun v => .next (s.setXr v).advance

/-- LOADIDX (R103): `acc <- MemRead(xr)`. -/
def execLoadidx (s : State) : Result :=
  s.readIndexed fun v => .next (s.setAcc v).advance

/-- STORE (R104): `MemWrite(operand, acc)`. -/
def execStore (addr : Nat) (s : State) : Result :=
  s.memWrite (absolute addr) s.acc fun t => .next t.advance

/-- STOREIDX (R105): `MemWrite(xr, acc)`. -/
def execStoreidx (s : State) : Result :=
  s.memWrite s.indexed s.acc fun t => .next t.advance

end Sys2Proof.Machine
end

