-- ==== Sys2Proof/Machine/Dispatch.lean ====
section
/-! DEFINITION. Machine/Dispatch.lean: one arm per instruction (R74). The class-N digits, and LOADIM's, are no
operand (R54), so those arms drop them. -/

namespace Sys2Proof.Machine

def exec (i : Instr) (s : State) : Host.Outcome State Fault Refusal :=
  match i with
  | .read addr => Sys2Proof.Machine.execRead addr s
  | .write addr => Sys2Proof.Machine.execWrite addr s
  | .load addr => Sys2Proof.Machine.execLoad addr s
  | .loadim _ => Sys2Proof.Machine.execLoadim s
  | .loadx addr => Sys2Proof.Machine.execLoadx addr s
  | .loadidx _ => Sys2Proof.Machine.execLoadidx s
  | .store addr => Sys2Proof.Machine.execStore addr s
  | .storeidx _ => Sys2Proof.Machine.execStoreidx s
  | .add addr => Sys2Proof.Machine.execAdd addr s
  | .addx _ => Sys2Proof.Machine.execAddx s
  | .subtract addr => Sys2Proof.Machine.execSubtract addr s
  | .subtractx _ => Sys2Proof.Machine.execSubtractx s
  | .divide addr => Sys2Proof.Machine.execDivide addr s
  | .dividex _ => Sys2Proof.Machine.execDividex s
  | .multiply addr => Sys2Proof.Machine.execMultiply addr s
  | .multiplyx _ => Sys2Proof.Machine.execMultiplyx s
  | .inc _ => Sys2Proof.Machine.execInc s
  | .dec _ => Sys2Proof.Machine.execDec s
  | .branch target => Sys2Proof.Machine.execBranch target s
  | .branchneg target => Sys2Proof.Machine.execBranchneg target s
  | .branchzero target => Sys2Proof.Machine.execBranchzero target s
  | .swap _ => Sys2Proof.Machine.execSwap s
  | .halt startPage endPage => Sys2Proof.Machine.execHalt startPage endPage s

end Sys2Proof.Machine
end

