-- ==== Sys2Proof/Machine/Cycle.lean ====
section
/-! DEFINITION. Machine/Cycle.lean: one fetch-decode-execute cycle (R70 to R79), and placing a word where the next cycle
fetches it. -/

namespace Sys2Proof.Machine

/-- The complete step of R77, for a running engine: the bounds-checked fetch (R71), the decode (R72) with its trace event
(R73), and the dispatch (R74). A READ with no input available is not enabled: the state stays the one before the cycle
(R79; log entry 4). -/
def State.cycle (s : State) : Result :=
  s.memRead s.ic fun w =>
    match decode w with
    | .unknown code => .next ((s.fetched w).raise .unknownOpcode code)
    | .known i      => if s.waits i then .next s else exec i (s.fetched w)

/-- `s` with the word that a row of spec/opcode_table.json shows (R62) placed at `ic` and the engine running, as after
the load and the `start` of R161 and R162 (log entry 14). Bits that show no word place nothing. -/
def State.placeTableWord (s : State) (nbits w : Nat) : State :=
  match tableWord nbits w with
  | none   => s
  | some v => (s.setMem s.ic v).setStatus .running

end Sys2Proof.Machine
end

