-- ==== Sys2Proof/Machine/Step.lean ====
section
/-! DEFINITION. Machine/Step.lean: one step of the machine. -/

namespace Sys2Proof.Machine

/-- One step. A running engine performs one cycle (R70). An idle one waits for `start`, its state as it is (R161). In a
terminal status no cycle exists (R70, R81; log entry 5). -/
def step (s : State) : Host.Outcome State Fault Refusal :=
  match s.status with
  | .idle              => .next s
  | .running           => s.cycle
  | .haltedNormal _ _  => .fault .runEnded
  | .haltedFault _ _ _ => .fault .runEnded

/-- `s` with an instruction placed where `step` fetches next, and the engine running (log entry 14). -/
def State.withFetchWord (s : State) (nbits w : Nat) : State := s.placeTableWord nbits w

end Sys2Proof.Machine
end

