-- ==== Sys2Proof/Machine/Dump.lean ====
section
/-! DEFINITION. Machine/Dump.lean: what the surroundings see after a run (R151 to R153, R168). Functions of the state that
no step calls: the dump unit is external and changes nothing. Texts are outside the core. -/

namespace Sys2Proof.Machine

/-- R153: `absolute location = page * 100 + row * 10 + col`. -/
def locationOf (page row col : Nat) : Nat := page * pageSize + row * 10 + col

/-- R153: `page = a div 100`. -/
def pageOf (a : Nat) : Nat := a / pageSize

/-- R153: `row = (a mod 100) div 10`. -/
def rowOf (a : Nat) : Nat := a % pageSize / 10

/-- R153: `col = a mod 10`. -/
def colOf (a : Nat) : Nat := a % 10

/-- R151: the dump request: issued only by a normal halt, with its two page numbers. -/
def State.dumpRequest (s : State) : Option (Nat × Nat) :=
  match s.status with
  | .idle                => none
  | .running             => none
  | .haltedNormal sp ep  => some (sp, ep)
  | .haltedFault _ _ _   => none

/-- R192: the fault report, "halted on fault X at location Y": kind, info, location. -/
def State.faultReport (s : State) : Option (FaultKind × Int × Nat) :=
  match s.status with
  | .idle                      => none
  | .running                   => none
  | .haltedNormal _ _          => none
  | .haltedFault kind info loc => some (kind, info, loc)

/-- The pages of a request, `startPage` to `endPage` inclusive; none when the start is above the end (R150). -/
def pagesFrom (startPage endPage : Nat) : List Nat := List.range' startPage (endPage + 1 - startPage)

/-- R152: one page as ten rows of ten cells. The spec does not say what is dumped for a page outside memory: `none`
(log entry 17). -/
def State.pageGrid (s : State) (page : Nat) : Option (List (List Int)) :=
  if page * pageSize < s.cfg.memSize then
    some ((List.range 10).map fun r => (List.range 10).map fun c => s.mem.read (locationOf page r c))
  else none

/-- R152: what the dump unit emits, in its order: accumulator, instruction counter, instruction register, derived opcode,
index register, then the pages. -/
structure Dump where
  acc    : Int
  ic     : Nat
  ir     : Int
  opcode : Nat
  xr     : Int
  pages  : List (Nat × Option (List (List Int)))
  deriving DecidableEq, Repr

/-- R152: the dump of a normally halted state; no other state has one. -/
def State.dump (s : State) : Option Dump :=
  match s.dumpRequest with
  | none          => none
  | some (sp, ep) =>
    some { acc := s.acc, ic := s.ic, ir := s.ir, opcode := opcodeOf s.ir, xr := s.xr,
           pages := (pagesFrom sp ep).map fun p => (p, s.pageGrid p) }

end Sys2Proof.Machine
end

