-- ==== Sys2Proof/Machine/Interfaces.lean ====
section
/-! DEFINITION. Machine/Interfaces.lean: what the surroundings may do (50_interfaces.md, 70_reset_and_hazards.md). Each
move of R169's table is a function of the state; a move the surroundings are assumed never to make has no result
(R169, U14; log entry 16). -/

namespace Sys2Proof.Machine

/-- The moves of the surroundings on the engine's input ports (R160). -/
inductive HostMove where
  /-- `reset` (R161, R210). -/
  | reset
  /-- The loader writes one word to one location (R162). -/
  | load (loc : Nat) (word : Int)
  /-- `start` (R161). -/
  | start
  /-- The input source comes to hold one more value (R164). -/
  | supply (v : Int)
  deriving DecidableEq, Repr

/-- `reset`, at any time and in any status (R210): everything zero, the engine idle. -/
def State.hostReset (s : State) : State := State.resetWith s.cfg

/-- One write of the loader (R162): open between `reset` and `start` only (R161), words and existing locations only. -/
def State.hostLoad (s : State) (loc : Nat) (word : Int) : Option State :=
  if s.status = .idle ∧ loc < s.cfg.memSize ∧ inW word then some { s with mem := s.mem.write loc word } else none

/-- `start` (R161): `status = Running` with `ic = 0`, once per run. -/
def State.hostStart (s : State) : Option State :=
  if s.status = .idle then some { s with status := .running, ic := entry } else none

/-- The input source holds one more value, a word by contract (R164). -/
def State.hostSupply (s : State) (v : Int) : Option State :=
  if inW v then some { s with input := s.input ++ [v] } else none

/-- One move of the surroundings; `none` where R169 says they are assumed never to make it. -/
def State.hostMove (s : State) : HostMove → Option State
  | .reset         => some s.hostReset
  | .load loc word => s.hostLoad loc word
  | .start         => s.hostStart
  | .supply v      => s.hostSupply v

/-- The loader's writes, in order (R162). -/
def State.hostLoads (s : State) : List (Nat × Int) → Option State
  | []               => some s
  | (loc, word) :: p =>
    match s.hostLoad loc word with
    | none   => none
    | some t => State.hostLoads t p

/-- Reset, load, start (R161, R212): the state at the first fetch of a run, for given parameters and program. -/
def State.launch (c : Config) (program : List (Nat × Int)) : Option State :=
  match (State.resetWith c).hostLoads program with
  | none   => none
  | some t => t.hostStart

end Sys2Proof.Machine
end

