-- ==== Sys2Proof/Safety.lean ====
section
/-! DEFINITION. Safety.lean: the vocabulary of claims: what every step and every move of the surroundings keeps
(`State.Inv`), the word-range invariant of R22 (`State.WordInv`), and the spec's tables of what each instruction reads,
writes and raises (R10, R33, R187). No step calls them. -/

namespace Sys2Proof.Machine

/-- The opcodes of R55. -/
def recognisedOpcodes : List Nat :=
  [10, 11, 20, 21, 22, 23, 25, 26, 30, 31, 32, 33, 34, 35, 36, 37, 38, 39, 40, 41, 42, 43, 45]

/-- The run has ended by an overflow: the one status in which `acc` is not bounded (R110, R186). -/
def State.overflowed (s : State) : Bool :=
  match s.status with
  | .idle                => false
  | .running             => false
  | .haltedNormal _ _    => false
  | .haltedFault k _ _   => decide (k = .accumulatorOverflow)

/-- What `status` says of the rest of the state: an idle engine has its registers at reset (R24); after a normal halt
`ir` is the HALT word (R18); a fault record is the one R182 describes. -/
def State.StatusOk (s : State) : Prop :=
  match s.status with
  | .idle                     => s.acc = 0 ∧ s.xr = 0 ∧ s.ir = 0 ∧ s.ic = 0
  | .running                  => True
  | .haltedNormal sp ep       => decode s.ir = .known (.halt sp ep)
  | .haltedFault k info loc   =>
    loc = s.ic ∧
      match k with
      | .unknownOpcode       => decode s.ir = .unknown (opcodeOf s.ir) ∧ info = opcodeOf s.ir
      | .outOfRangeAccess    => ¬ s.inMemory info
      | .divisionByZero      => info = s.ic
      | .accumulatorOverflow => info = s.acc ∧ overflows info

/-- The invariant of the machine: admissible parameters (R2, R3), memory in canonical form and inside the array (R30),
`ic` in 0..9999 (R14, R23), every storage element within `CAP` (R3, R133), and a status that fits the state. -/
structure State.Inv (s : State) : Prop where
  config    : s.cfg.wf = true
  canonical : s.mem.wf
  bounded   : ∀ c ∈ s.mem, c.1 < s.cfg.memSize
  icRange   : s.ic ≤ operandMax
  cellsHeld : ∀ c ∈ s.mem, s.cfg.holds c.2 = true
  accHeld   : s.overflowed = false → s.cfg.holds s.acc = true
  xrHeld    : s.cfg.holds s.xr = true
  irHeld    : s.cfg.holds s.ir = true
  statusOk  : s.StatusOk

/-- R22: memory cells, `acc`, `xr`, `ir` and the pending inputs are words (`acc` unless the run has ended by an
overflow). -/
structure State.WordInv (s : State) : Prop where
  cells  : ∀ c ∈ s.mem, inW c.2
  acc    : s.overflowed = false → inW s.acc
  xr     : inW s.xr
  ir     : inW s.ir
  inputs : ∀ v ∈ s.input, inW v

/-- The instructions that write `acc` (R10's table, column "written by"). -/
def writesAcc : Instr → Bool
  | .read _        => false
  | .write _       => false
  | .load _        => true
  | .loadim _      => true
  | .loadx _       => false
  | .loadidx _     => true
  | .store _       => false
  | .storeidx _    => false
  | .add _         => true
  | .addx _        => true
  | .subtract _    => true
  | .subtractx _   => true
  | .divide _      => true
  | .dividex _     => true
  | .multiply _    => true
  | .multiplyx _   => true
  | .inc _         => false
  | .dec _         => false
  | .branch _      => false
  | .branchneg _   => false
  | .branchzero _  => false
  | .swap _        => true
  | .halt _ _      => false

/-- The instructions that write `xr` (R10's table). -/
def writesXr : Instr → Bool
  | .read _        => false
  | .write _       => false
  | .load _        => false
  | .loadim _      => false
  | .loadx _       => true
  | .loadidx _     => false
  | .store _       => false
  | .storeidx _    => false
  | .add _         => false
  | .addx _        => false
  | .subtract _    => false
  | .subtractx _   => false
  | .divide _      => false
  | .dividex _     => false
  | .multiply _    => false
  | .multiplyx _   => false
  | .inc _         => true
  | .dec _         => true
  | .branch _      => false
  | .branchneg _   => false
  | .branchzero _  => false
  | .swap _        => true
  | .halt _ _      => false

/-- R33: the one data address of an instruction, read or written; `none` for those with no data access. -/
def dataAddress (s : State) : Instr → Option Int
  | .read a => some a
  | .write a => some a
  | .load a => some a
  | .loadim _ => none
  | .loadx a => some a
  | .loadidx _ => some s.xr
  | .store a => some a
  | .storeidx _ => some s.xr
  | .add a => some a
  | .addx _ => some s.xr
  | .subtract a => some a
  | .subtractx _ => some s.xr
  | .divide a => some a
  | .dividex _ => some s.xr
  | .multiply a => some a
  | .multiplyx _ => some s.xr
  | .inc _ => none
  | .dec _ => none
  | .branch _ => none
  | .branchneg _ => none
  | .branchzero _ => none
  | .swap _ => none
  | .halt _ _ => none

/-- R33: the address an instruction writes to; `none` for those that store nothing. -/
def storeAddress (s : State) : Instr → Option Int
  | .read a => some a
  | .write _ => none
  | .load _ => none
  | .loadim _ => none
  | .loadx _ => none
  | .loadidx _ => none
  | .store a => some a
  | .storeidx _ => some s.xr
  | .add _ => none
  | .addx _ => none
  | .subtract _ => none
  | .subtractx _ => none
  | .divide _ => none
  | .dividex _ => none
  | .multiply _ => none
  | .multiplyx _ => none
  | .inc _ => none
  | .dec _ => none
  | .branch _ => none
  | .branchneg _ => none
  | .branchzero _ => none
  | .swap _ => none
  | .halt _ _ => none

/-- R187: which faults the execute part of each instruction can raise. -/
def faultsOf : Instr → List FaultKind
  | .read _ => [.outOfRangeAccess]
  | .write _ => [.outOfRangeAccess]
  | .load _ => [.outOfRangeAccess]
  | .loadim _ => []
  | .loadx _ => [.outOfRangeAccess]
  | .loadidx _ => [.outOfRangeAccess]
  | .store _ => [.outOfRangeAccess]
  | .storeidx _ => [.outOfRangeAccess]
  | .add _ => [.outOfRangeAccess, .accumulatorOverflow]
  | .addx _ => [.outOfRangeAccess, .accumulatorOverflow]
  | .subtract _ => [.outOfRangeAccess, .accumulatorOverflow]
  | .subtractx _ => [.outOfRangeAccess, .accumulatorOverflow]
  | .divide _ => [.outOfRangeAccess, .divisionByZero]
  | .dividex _ => [.outOfRangeAccess, .divisionByZero]
  | .multiply _ => [.outOfRangeAccess, .accumulatorOverflow]
  | .multiplyx _ => [.outOfRangeAccess, .accumulatorOverflow]
  | .inc _ => []
  | .dec _ => []
  | .branch _ => []
  | .branchneg _ => []
  | .branchzero _ => []
  | .swap _ => []
  | .halt _ _ => []

end Sys2Proof.Machine
end

