-- ==== Sys2Proof/Certificates/Slice0/Obligations.lean ====
section
/-! DEFINITION. Certificates/Slice0/Obligations.lean: the statements for the provers. -/

open Sys2Proof Sys2Proof.Machine

/-- For every sign, every opcode 0..99 and every operand 0..9999, splitting the packed word gives the opcode and the
operand back; two integers split alike exactly when they have the same magnitude. (R52.) -/
def Obligations.PackSplitsBack : Prop :=
  (∀ (s : Sign) (o p : Nat), o ≤ 99 → p ≤ 9999 →
    pack s o p = (match s with | .plus => 1 | .minus => -1) * ((o : Int) * 10000 + p) ∧
      opcodeOf (pack s o p) = o ∧ operandOf (pack s o p) = p) ∧
  (∀ v w : Int, (opcodeOf v = opcodeOf w ∧ operandOf v = operandOf w) ↔ v.natAbs = w.natAbs)

/-- For every well-formed instruction and either sign of its word, the decoder answers exactly that instruction: every
operand value the encoding admits survives. (30_encoding.md sections 1 and 3 (R51, R52, R55).) -/
def Obligations.DecodeOfEncodeGivesInstruction : Prop :=
  ∀ (s : Sign) (i : Instr), i.wf = true → decode (encode s i) = .known i

/-- If an integer decodes to an instruction, the instruction is well formed, and encoding it with the integer's sign
gives the integer back. (30_encoding.md sections 1 and 3 (R51, R52, R53, R55).) -/
def Obligations.EncodeOfDecodeGivesWord : Prop :=
  ∀ (w : Int) (i : Instr), decode w = .known i →
    i.wf = true ∧ encode (if w < 0 then .minus else .plus) i = w

/-- An integer decodes to an instruction exactly when |w| div 10000 is one of the 23 opcodes, and then the instruction
has that opcode; every other integer, cells that are not words included, is answered by its opcode value as unknown.
(30_encoding.md sections 3 and 4 (R55, R56, R58).) -/
def Obligations.RecognisedOpcodesAreThe23 : Prop :=
  ∀ w : Int,
    (w.natAbs / 10000 ∈ [10, 11, 20, 21, 22, 23, 25, 26, 30, 31, 32, 33, 34, 35, 36, 37, 38, 39, 40, 41, 42, 43, 45] →
      ∃ i, decode w = .known i ∧ i.opcode = w.natAbs / 10000) ∧
    (w.natAbs / 10000 ∉ [10, 11, 20, 21, 22, 23, 25, 26, 30, 31, 32, 33, 34, 35, 36, 37, 38, 39, 40, 41, 42, 43, 45] →
      decode w = .unknown (w.natAbs / 10000))

/-- A word and its negation decode to the same instruction; every instruction other than LOADIM answers alike, but for
ir itself, when the sign of ir is changed; LOADIM on a negated instruction register loads the negated value. (R53.) -/
def Obligations.SignOfWordMattersToLoadimOnly : Prop :=
  (∀ w : Int, decode (-w) = decode w) ∧
  (∀ (i : Instr) (s : State), (∀ d, i ≠ .loadim d) → exec i { s with ir := -s.ir } =
    match exec i s with
    | .next t => .next { t with ir := -s.ir }
    | .fault f => .fault f
    | .refused r => .refused r) ∧
  (∀ (d : Nat) (s : State), exec (.loadim d) { s with ir := -s.ir } =
    .next { s with ir := -s.ir, acc := -(s.ir.sign * ((s.ir.natAbs % 1000000 : Nat) : Int)), ic := nextIc s.ic })

/-- One word of every family, positive or negative, decodes to its instruction, and unassigned opcodes are named.
(30_encoding.md section 3 (R55), 96_derived_vectors.md table VD.) -/
def Obligations.WrittenOutWordsDecode : Prop :=
  decode 100007 = .known (.read 7) ∧ decode (-110009) = .known (.write 9) ∧ decode (-211234) = .known (.loadim 1234) ∧
  decode 260000 = .known (.storeidx 0) ∧ decode 320030 = .known (.subtract 30) ∧ decode 370000 = .known (.multiplyx 0) ∧
  decode 381234 = .known (.inc 1234) ∧ decode (-400007) = .known (.branch 7) ∧ decode 450205 = .known (.halt 2 5) ∧
  decode 0 = .unknown 0 ∧ decode (-990001) = .unknown 99 ∧ decode 1000000 = .unknown 100

/-- Every word has a BCD view of 25 bits, bit 24 the sign, and reading the view gives the word back; conversely a
pattern that shows a word is that word's view, so every other pattern shows none. (The view is the spec's own
notation, decision D12; that a pattern which is the view of no word shows no word is the model's choice, log entry
13.) (30_encoding.md section 7 (R62), 92_eei_decisions.md D12, notes/assumptions/13.md.) -/
def Obligations.BcdViewShowsEveryWord : Prop :=
  (∀ w : Int, inW w → bcdOfWord w < 2 ^ 25 ∧ (bcdOfWord w / 2 ^ 24 = 1 ↔ w < 0) ∧ wordOfBcd (bcdOfWord w) = some w) ∧
  (∀ (n : Nat) (w : Int), wordOfBcd n = some w → inW w ∧ bcdOfWord w = n)

/-- For every word and every two-digit opcode, the bits of the word's BCD view under mask 0x0FF0000 are the opcode's two
digits read as hexadecimal exactly when |w| div 10000 is the opcode. (The view is the spec's own notation, decision
D12.) (30_encoding.md section 7 (R62), 92_eei_decisions.md D12.) -/
def Obligations.TableMaskSelectsTheOpcode : Prop :=
  ∀ (w : Int) (o : Nat), inW w → o ≤ 99 →
    (bcdOfWord w &&& 0x0FF0000 = (o / 10 * 16 + o % 10) * 65536 ↔ w.natAbs / 10000 = o)

/-- When the engine runs, ic is a location of memory and the word w there decodes to an instruction that does not have
to wait for input, the step is that instruction's execution from the state in which ir holds w and one trace event
(ic, w, |w| div 10000, |w| mod 10000) has been appended. The point at which the trace event is emitted is the spec's
decision D9. (40_cycle.md section 3 (R70, R71, R72, R73, R74, R77), 92_eei_decisions.md D4, D9.) -/
def Obligations.StepRunsTheDecodedInstruction : Prop :=
  ∀ (s : State) (i : Instr), s.status = .running → s.ic < s.cfg.memSize →
    decode (s.mem.read s.ic) = .known i → s.waits i = false →
    step s = exec i { s with
      ir := s.mem.read s.ic
      events := s.events ++ [.trace s.ic (s.mem.read s.ic) ((s.mem.read s.ic).natAbs / 10000) ((s.mem.read s.ic).natAbs % 10000)] }

/-- When the engine runs and the word at ic has an opcode outside the 23, the step ends the run with UnknownOpcode(|w|
div 10000) at ic: ir holds the word, the trace event is out, nothing else has changed. The record's contents and the
trace's point of emission are the spec's decisions D5, D6 and D9. (30_encoding.md section 4 (R56, R58),
60_exceptions.md section 1 (R183), 92_eei_decisions.md D5, D6, D9.) -/
def Obligations.StepFaultsOnUnknownOpcode : Prop :=
  ∀ (s : State), s.status = .running → s.ic < s.cfg.memSize →
    (s.mem.read s.ic).natAbs / 10000 ∉ recognisedOpcodes →
    step s = .next { s with
      ir := s.mem.read s.ic
      events := s.events ++ [.trace s.ic (s.mem.read s.ic) ((s.mem.read s.ic).natAbs / 10000) ((s.mem.read s.ic).natAbs % 10000)]
      status := .haltedFault .unknownOpcode (((s.mem.read s.ic).natAbs / 10000 : Nat) : Int) s.ic }

/-- When the engine runs and ic is not below MEM_SIZE, the step ends the run with OutOfRangeAccess(ic) at ic; ir keeps
its value and no trace event is produced. That the fetch is checked is the spec's decision D4. (40_cycle.md section
1 (R71), 92_eei_decisions.md D4, D5.) -/
def Obligations.StepFaultsOnFetchOutsideMemory : Prop :=
  ∀ (s : State), s.status = .running → s.cfg.memSize ≤ s.ic →
    step s = .next { s with status := .haltedFault .outOfRangeAccess s.ic s.ic }

/-- When the engine runs and the word at ic is a READ of a location of memory while the input source holds nothing, the
step answers the same state. Conversely an instruction waits only in that situation. Answering the unchanged state
is the model's choice (log entry 4); blocking itself is R79's, decision D7. (40_cycle.md section 3 (R79),
92_eei_decisions.md D7, notes/assumptions/4.md.) -/
def Obligations.ReadWithoutInputWaits : Prop :=
  (∀ (s : State) (a : Nat), s.status = .running → s.ic < s.cfg.memSize → decode (s.mem.read s.ic) = .known (.read a) →
    a < s.cfg.memSize → s.input = [] → step s = .next s) ∧
  (∀ (s : State) (i : Instr), s.waits i = true ↔ ∃ a, i = .read a ∧ a < s.cfg.memSize ∧ s.input = [])

/-- An idle engine's step leaves the state as it is; in either terminal status a step stops with runEnded and gives no
state. Both outcomes are the model's rendering of 'no cycle' (log entries 2 and 5). (40_cycle.md section 1 (R70,
R81), 60_exceptions.md section 3 (R191), notes/assumptions/2.md, notes/assumptions/5.md.) -/
def Obligations.NoCycleOutsideARun : Prop :=
  ∀ s : State,
    (s.status = .idle → step s = .next s) ∧
    (∀ p q, s.status = .haltedNormal p q → step s = .fault .runEnded) ∧
    (∀ k v a, s.status = .haltedFault k v a → step s = .fault .runEnded)

/-- Advance() gives ic + 1 for ic in 0..98 and 0 for ic = 99. For ic of 100 or more it gives 0: that clause is the
spec's own decision D3. (40_cycle.md section 2 (R75), 92_eei_decisions.md D3.) -/
def Obligations.SequentialAdvanceWrapsAtPageEnd : Prop :=
  (∀ n : Nat, n ≤ 98 → nextIc n = n + 1) ∧ nextIc 99 = 0 ∧ (∀ n : Nat, 100 ≤ n → nextIc n = 0)

/-- For an instruction executed in a running state: a fault leaves ic unchanged; HALT leaves it unchanged; BRANCH sets
it to its operand; BRANCHNEG sets it to its operand when acc < 0, else to 0 when ic = 3, else advances; BRANCHZERO
sets it to its operand when acc = 0, else advances; every other instruction that completes advances. (R15.) -/
def Obligations.InstructionCounterAfterEachInstruction : Prop :=
  ∀ (i : Instr) (s t : State), s.status = .running → s.waits i = false → exec i s = .next t →
    (∀ k v a, t.status = .haltedFault k v a → t.ic = s.ic) ∧
    (∀ p q, i = .halt p q → t.ic = s.ic) ∧
    (∀ d, i = .branch d → t.ic = d) ∧
    (∀ d, i = .branchneg d → t.ic = if s.acc < 0 then d else if s.ic = 3 then 0 else nextIc s.ic) ∧
    (∀ d, i = .branchzero d → t.ic = if s.acc = 0 then d else nextIc s.ic) ∧
    (t.status = .running → (∀ p q, i ≠ .halt p q) → (∀ d, i ≠ .branch d) → (∀ d, i ≠ .branchneg d) →
      (∀ d, i ≠ .branchzero d) → t.ic = nextIc s.ic)

/-- With its location in memory and a word v first at the input source, READ answers the state in which mem[operand] =
v, every other location is as before, v is consumed, the request and the consumption are recorded, ic has advanced,
and nothing else has changed. With its location outside memory it faults and consumes nothing (the order is the
spec's decision D7). A value that is not a word is refused: R90 names no check, U4 gives a model two ways, and this
one is the model's choice (log entry 6). (41_io.md (READ), 50_interfaces.md (input port), 92_eei_decisions.md D7,
93_implementation_defined.md U4, notes/assumptions/6.md.) -/
def Obligations.ReadStoresTheInput : Prop :=
  ∀ (a : Nat) (s : State), s.mem.wf →
    (∀ v rest, a < s.cfg.memSize → s.input = v :: rest → inW v →
      ∃ m : Memory,
        exec (.read a) s = .next { s with mem := m, input := rest, events := s.events ++ [.inputRequest, .input v], ic := nextIc s.ic } ∧
        m.wf ∧ m.read a = v ∧ ∀ b, b ≠ a → m.read b = s.mem.read b) ∧
    (∀ v rest, a < s.cfg.memSize → s.input = v :: rest → ¬ inW v → exec (.read a) s = .refused .inputOutOfRange) ∧
    (s.cfg.memSize ≤ a → exec (.read a) s = .next (s.raise .outOfRangeAccess a))

/-- Every integer w with |w| div 10000 = 11, of either sign, decodes to WRITE with the digits |w| mod 10000. With its
location in memory WRITE answers the state with one output event more, carrying mem[operand], and ic advanced;
registers and memory are unchanged. Outside memory it faults and emits nothing. (R91.) -/
def Obligations.WriteEmitsTheCell : Prop :=
  (∀ w : Int, w.natAbs / 10000 = 11 → decode w = .known (.write (w.natAbs % 10000))) ∧
  (∀ (a : Nat) (s : State),
    (a < s.cfg.memSize →
      exec (.write a) s = .next { s with events := s.events ++ [.output (s.mem.read a)], ic := nextIc s.ic }) ∧
    (s.cfg.memSize ≤ a → exec (.write a) s = .next (s.raise .outOfRangeAccess a)))

/-- Every integer w with |w| div 10000 = 20, of either sign, decodes to LOAD with the digits |w| mod 10000. With its
location in memory LOAD answers the state with acc = mem[operand] and ic advanced, all else unchanged; outside
memory it faults with the operand as info and acc unchanged. (R100.) -/
def Obligations.LoadCopiesCellToAcc : Prop :=
  (∀ w : Int, w.natAbs / 10000 = 20 → decode w = .known (.load (w.natAbs % 10000))) ∧
  (∀ (a : Nat) (s : State),
    (a < s.cfg.memSize → exec (.load a) s = .next { s with acc := s.mem.read a, ic := nextIc s.ic }) ∧
    (s.cfg.memSize ≤ a → exec (.load a) s = .next (s.raise .outOfRangeAccess a)))

/-- Every integer w with |w| div 10000 = 21, of either sign, decodes to LOADIM with the digits |w| mod 10000. LOADIM
always answers the state with acc = trem(ir, 1000000) and ic advanced, all else unchanged; that remainder is
sign(ir) * (|ir| mod 1000000), and whenever ir is a LOADIM word it is ir itself, of magnitude 210000..219999.
(R101.) -/
def Obligations.LoadimLoadsTheWholeWord : Prop :=
  (∀ w : Int, w.natAbs / 10000 = 21 → decode w = .known (.loadim (w.natAbs % 10000))) ∧
  (∀ (d : Nat) (s : State),
    exec (.loadim d) s = .next { s with acc := trem s.ir 1000000, ic := nextIc s.ic } ∧
    trem s.ir 1000000 = s.ir.sign * ((s.ir.natAbs % 1000000 : Nat) : Int) ∧
    (decode s.ir = .known (.loadim d) → trem s.ir 1000000 = s.ir ∧ 210000 ≤ s.ir.natAbs ∧ s.ir.natAbs ≤ 219999))

/-- Every integer w with |w| div 10000 = 22, of either sign, decodes to LOADX with the digits |w| mod 10000. With its
location in memory LOADX answers the state with xr = mem[operand] and ic advanced, all else unchanged; outside
memory it faults with the operand as info and xr unchanged. (R102.) -/
def Obligations.LoadxCopiesCellToXr : Prop :=
  (∀ w : Int, w.natAbs / 10000 = 22 → decode w = .known (.loadx (w.natAbs % 10000))) ∧
  (∀ (a : Nat) (s : State),
    (a < s.cfg.memSize → exec (.loadx a) s = .next { s with xr := s.mem.read a, ic := nextIc s.ic }) ∧
    (s.cfg.memSize ≤ a → exec (.loadx a) s = .next (s.raise .outOfRangeAccess a)))

/-- Every integer w with |w| div 10000 = 23, of either sign, decodes to LOADIDX with the digits |w| mod 10000. With xr a
location of memory LOADIDX answers the state with acc = mem[xr] and ic advanced, all else (xr too) unchanged,
whatever the operand digits; with xr negative or not below MEM_SIZE it faults with xr as info and acc unchanged.
(R103.) -/
def Obligations.LoadidxCopiesIndexedCellToAcc : Prop :=
  (∀ w : Int, w.natAbs / 10000 = 23 → decode w = .known (.loadidx (w.natAbs % 10000))) ∧
  (∀ (d : Nat) (s : State),
    (0 ≤ s.xr → s.xr < (s.cfg.memSize : Int) → exec (.loadidx d) s = .next { s with acc := s.mem.read s.xr.toNat, ic := nextIc s.ic }) ∧
    (s.xr < 0 ∨ (s.cfg.memSize : Int) ≤ s.xr → exec (.loadidx d) s = .next (s.raise .outOfRangeAccess s.xr)))

/-- Every integer w with |w| div 10000 = 25, of either sign, decodes to STORE with the digits |w| mod 10000. With its
location in memory STORE answers the state whose memory holds acc at the operand and is as before everywhere else,
with ic advanced and all else unchanged; outside memory it faults and memory is unchanged. (R104.) -/
def Obligations.StoreWritesAccToCell : Prop :=
  (∀ w : Int, w.natAbs / 10000 = 25 → decode w = .known (.store (w.natAbs % 10000))) ∧
  (∀ (a : Nat) (s : State), s.mem.wf →
    (a < s.cfg.memSize → ∃ m : Memory, exec (.store a) s = .next { s with mem := m, ic := nextIc s.ic } ∧
      m.wf ∧ m.read a = s.acc ∧ ∀ b, b ≠ a → m.read b = s.mem.read b) ∧
    (s.cfg.memSize ≤ a → exec (.store a) s = .next (s.raise .outOfRangeAccess a)))

/-- Every integer w with |w| div 10000 = 26, of either sign, decodes to STOREIDX with the digits |w| mod 10000. With xr
a location of memory STOREIDX answers the state whose memory holds acc at xr and is as before everywhere else, with
ic advanced and all else (xr too) unchanged; with xr outside memory it faults and memory is unchanged. (R105.) -/
def Obligations.StoreidxWritesAccToIndexedCell : Prop :=
  (∀ w : Int, w.natAbs / 10000 = 26 → decode w = .known (.storeidx (w.natAbs % 10000))) ∧
  (∀ (d : Nat) (s : State), s.mem.wf →
    (0 ≤ s.xr → s.xr < (s.cfg.memSize : Int) → ∃ m : Memory,
      exec (.storeidx d) s = .next { s with mem := m, ic := nextIc s.ic } ∧
      m.wf ∧ m.read s.xr.toNat = s.acc ∧ ∀ b, b ≠ s.xr.toNat → m.read b = s.mem.read b) ∧
    (s.xr < 0 ∨ (s.cfg.memSize : Int) ≤ s.xr → exec (.storeidx d) s = .next (s.raise .outOfRangeAccess s.xr)))

/-- Every integer w with |w| div 10000 = 30, of either sign, decodes to ADD with the digits |w| mod 10000. ADD with its
location in memory and the exact sum of acc and the cell a word answers the state with that sum in acc and ic
advanced, all else unchanged; with the sum outside [-999999, 999999] it faults with AccumulatorOverflow of the sum,
which acc then holds; outside memory it faults with acc unchanged. (R111.) -/
def Obligations.AddIsExactOrOverflows : Prop :=
  (∀ w : Int, w.natAbs / 10000 = 30 → decode w = .known (.add (w.natAbs % 10000))) ∧
  (∀ (a : Nat) (s : State),
    (a < s.cfg.memSize → -999999 ≤ (s.acc + s.mem.read a) → (s.acc + s.mem.read a) ≤ 999999 →
      exec (.add a) s = .next { s with acc := s.acc + s.mem.read a, ic := nextIc s.ic }) ∧
    (a < s.cfg.memSize → (s.acc + s.mem.read a) < -999999 ∨ 999999 < (s.acc + s.mem.read a) →
      exec (.add a) s = .next (({ s with acc := s.acc + s.mem.read a } : State).raise .accumulatorOverflow (s.acc + s.mem.read a))) ∧
    (s.cfg.memSize ≤ a → exec (.add a) s = .next (s.raise .outOfRangeAccess a)))

/-- Every integer w with |w| div 10000 = 31, of either sign, decodes to ADDX with the digits |w| mod 10000. ADDX with
its location in memory and the exact sum of acc and the cell a word answers the state with that sum in acc and ic
advanced, all else unchanged; with the sum outside [-999999, 999999] it faults with AccumulatorOverflow of the sum,
which acc then holds; outside memory it faults with acc unchanged. (R112.) -/
def Obligations.AddxIsExactOrOverflows : Prop :=
  (∀ w : Int, w.natAbs / 10000 = 31 → decode w = .known (.addx (w.natAbs % 10000))) ∧
  (∀ (d : Nat) (s : State),
    (0 ≤ s.xr → s.xr < (s.cfg.memSize : Int) → -999999 ≤ (s.acc + s.mem.read s.xr.toNat) → (s.acc + s.mem.read s.xr.toNat) ≤ 999999 →
      exec (.addx d) s = .next { s with acc := s.acc + s.mem.read s.xr.toNat, ic := nextIc s.ic }) ∧
    (0 ≤ s.xr → s.xr < (s.cfg.memSize : Int) → (s.acc + s.mem.read s.xr.toNat) < -999999 ∨ 999999 < (s.acc + s.mem.read s.xr.toNat) →
      exec (.addx d) s = .next (({ s with acc := s.acc + s.mem.read s.xr.toNat } : State).raise .accumulatorOverflow (s.acc + s.mem.read s.xr.toNat))) ∧
    (s.xr < 0 ∨ (s.cfg.memSize : Int) ≤ s.xr → exec (.addx d) s = .next (s.raise .outOfRangeAccess s.xr)))

/-- Every integer w with |w| div 10000 = 32, of either sign, decodes to SUBTRACT with the digits |w| mod 10000. SUBTRACT
with its location in memory and the exact difference of acc and the cell a word answers the state with that
difference in acc and ic advanced, all else unchanged; with the difference outside [-999999, 999999] it faults with
AccumulatorOverflow of the difference, which acc then holds; outside memory it faults with acc unchanged. (R113.) -/
def Obligations.SubtractIsExactOrOverflows : Prop :=
  (∀ w : Int, w.natAbs / 10000 = 32 → decode w = .known (.subtract (w.natAbs % 10000))) ∧
  (∀ (a : Nat) (s : State),
    (a < s.cfg.memSize → -999999 ≤ (s.acc - s.mem.read a) → (s.acc - s.mem.read a) ≤ 999999 →
      exec (.subtract a) s = .next { s with acc := s.acc - s.mem.read a, ic := nextIc s.ic }) ∧
    (a < s.cfg.memSize → (s.acc - s.mem.read a) < -999999 ∨ 999999 < (s.acc - s.mem.read a) →
      exec (.subtract a) s = .next (({ s with acc := s.acc - s.mem.read a } : State).raise .accumulatorOverflow (s.acc - s.mem.read a))) ∧
    (s.cfg.memSize ≤ a → exec (.subtract a) s = .next (s.raise .outOfRangeAccess a)))

/-- Every integer w with |w| div 10000 = 33, of either sign, decodes to SUBTRACTX with the digits |w| mod 10000.
SUBTRACTX with its location in memory and the exact difference of acc and the cell a word answers the state with
that difference in acc and ic advanced, all else unchanged; with the difference outside [-999999, 999999] it faults
with AccumulatorOverflow of the difference, which acc then holds; outside memory it faults with acc unchanged.
(R114.) -/
def Obligations.SubtractxIsExactOrOverflows : Prop :=
  (∀ w : Int, w.natAbs / 10000 = 33 → decode w = .known (.subtractx (w.natAbs % 10000))) ∧
  (∀ (d : Nat) (s : State),
    (0 ≤ s.xr → s.xr < (s.cfg.memSize : Int) → -999999 ≤ (s.acc - s.mem.read s.xr.toNat) → (s.acc - s.mem.read s.xr.toNat) ≤ 999999 →
      exec (.subtractx d) s = .next { s with acc := s.acc - s.mem.read s.xr.toNat, ic := nextIc s.ic }) ∧
    (0 ≤ s.xr → s.xr < (s.cfg.memSize : Int) → (s.acc - s.mem.read s.xr.toNat) < -999999 ∨ 999999 < (s.acc - s.mem.read s.xr.toNat) →
      exec (.subtractx d) s = .next (({ s with acc := s.acc - s.mem.read s.xr.toNat } : State).raise .accumulatorOverflow (s.acc - s.mem.read s.xr.toNat))) ∧
    (s.xr < 0 ∨ (s.cfg.memSize : Int) ≤ s.xr → exec (.subtractx d) s = .next (s.raise .outOfRangeAccess s.xr)))

/-- Every integer w with |w| div 10000 = 34, of either sign, decodes to DIVIDE with the digits |w| mod 10000. DIVIDE
with its location in memory and a non-zero divisor there answers the state with the quotient truncated toward zero
in acc and ic advanced, all else unchanged; with a zero divisor it faults with DivisionByZero of its own location,
acc unchanged, whatever the dividend; outside memory it faults with OutOfRangeAccess, acc unchanged. (R115.) -/
def Obligations.DivideTruncatesOrFaults : Prop :=
  (∀ w : Int, w.natAbs / 10000 = 34 → decode w = .known (.divide (w.natAbs % 10000))) ∧
  (∀ (a : Nat) (s : State),
    (a < s.cfg.memSize → s.mem.read a ≠ 0 →
      exec (.divide a) s = .next { s with acc := Int.tdiv s.acc (s.mem.read a), ic := nextIc s.ic }) ∧
    (a < s.cfg.memSize → s.mem.read a = 0 → exec (.divide a) s = .next (s.raise .divisionByZero s.ic)) ∧
    (s.cfg.memSize ≤ a → exec (.divide a) s = .next (s.raise .outOfRangeAccess a)))

/-- Every integer w with |w| div 10000 = 35, of either sign, decodes to DIVIDEX with the digits |w| mod 10000. DIVIDEX
with its location in memory and a non-zero divisor there answers the state with the quotient truncated toward zero
in acc and ic advanced, all else unchanged; with a zero divisor it faults with DivisionByZero of its own location,
acc unchanged, whatever the dividend; outside memory it faults with OutOfRangeAccess, acc unchanged. (R116.) -/
def Obligations.DividexTruncatesOrFaults : Prop :=
  (∀ w : Int, w.natAbs / 10000 = 35 → decode w = .known (.dividex (w.natAbs % 10000))) ∧
  (∀ (d : Nat) (s : State),
    (0 ≤ s.xr → s.xr < (s.cfg.memSize : Int) → s.mem.read s.xr.toNat ≠ 0 →
      exec (.dividex d) s = .next { s with acc := Int.tdiv s.acc (s.mem.read s.xr.toNat), ic := nextIc s.ic }) ∧
    (0 ≤ s.xr → s.xr < (s.cfg.memSize : Int) → s.mem.read s.xr.toNat = 0 → exec (.dividex d) s = .next (s.raise .divisionByZero s.ic)) ∧
    (s.xr < 0 ∨ (s.cfg.memSize : Int) ≤ s.xr → exec (.dividex d) s = .next (s.raise .outOfRangeAccess s.xr)))

/-- Every integer w with |w| div 10000 = 36, of either sign, decodes to MULTIPLY with the digits |w| mod 10000. MULTIPLY
with its location in memory and the exact product of acc and the cell a word answers the state with that product in
acc and ic advanced, all else unchanged; with the product outside [-999999, 999999] it faults with
AccumulatorOverflow of the product, which acc then holds; outside memory it faults with acc unchanged. (R117.) -/
def Obligations.MultiplyIsExactOrOverflows : Prop :=
  (∀ w : Int, w.natAbs / 10000 = 36 → decode w = .known (.multiply (w.natAbs % 10000))) ∧
  (∀ (a : Nat) (s : State),
    (a < s.cfg.memSize → -999999 ≤ (s.acc * s.mem.read a) → (s.acc * s.mem.read a) ≤ 999999 →
      exec (.multiply a) s = .next { s with acc := s.acc * s.mem.read a, ic := nextIc s.ic }) ∧
    (a < s.cfg.memSize → (s.acc * s.mem.read a) < -999999 ∨ 999999 < (s.acc * s.mem.read a) →
      exec (.multiply a) s = .next (({ s with acc := s.acc * s.mem.read a } : State).raise .accumulatorOverflow (s.acc * s.mem.read a))) ∧
    (s.cfg.memSize ≤ a → exec (.multiply a) s = .next (s.raise .outOfRangeAccess a)))

/-- Every integer w with |w| div 10000 = 37, of either sign, decodes to MULTIPLYX with the digits |w| mod 10000.
MULTIPLYX with its location in memory and the exact product of acc and the cell a word answers the state with that
product in acc and ic advanced, all else unchanged; with the product outside [-999999, 999999] it faults with
AccumulatorOverflow of the product, which acc then holds; outside memory it faults with acc unchanged. (R118.) -/
def Obligations.MultiplyxIsExactOrOverflows : Prop :=
  (∀ w : Int, w.natAbs / 10000 = 37 → decode w = .known (.multiplyx (w.natAbs % 10000))) ∧
  (∀ (d : Nat) (s : State),
    (0 ≤ s.xr → s.xr < (s.cfg.memSize : Int) → -999999 ≤ (s.acc * s.mem.read s.xr.toNat) → (s.acc * s.mem.read s.xr.toNat) ≤ 999999 →
      exec (.multiplyx d) s = .next { s with acc := s.acc * s.mem.read s.xr.toNat, ic := nextIc s.ic }) ∧
    (0 ≤ s.xr → s.xr < (s.cfg.memSize : Int) → (s.acc * s.mem.read s.xr.toNat) < -999999 ∨ 999999 < (s.acc * s.mem.read s.xr.toNat) →
      exec (.multiplyx d) s = .next (({ s with acc := s.acc * s.mem.read s.xr.toNat } : State).raise .accumulatorOverflow (s.acc * s.mem.read s.xr.toNat))) ∧
    (s.xr < 0 ∨ (s.cfg.memSize : Int) ≤ s.xr → exec (.multiplyx d) s = .next (s.raise .outOfRangeAccess s.xr)))

/-- For a non-zero divisor the quotient is sign(a) * sign(d) * (|a| div |d|), the rest a - d * quotient is smaller than
|d| in magnitude and never of the opposite sign to a, and the quotient of a word is a word. (43_arithmetic.md
section 1 (R119), 00_scope.md section 6.3.) -/
def Obligations.DivisionTruncatesTowardZero : Prop :=
  ∀ a d : Int, d ≠ 0 →
    tdiv a d = a.sign * d.sign * ((a.natAbs / d.natAbs : Nat) : Int) ∧
    (a - d * tdiv a d).natAbs < d.natAbs ∧
    (0 ≤ a → 0 ≤ a - d * tdiv a d) ∧ (a ≤ 0 → a - d * tdiv a d ≤ 0) ∧
    (tdiv a d).natAbs ≤ a.natAbs ∧ (inW a → inW (tdiv a d))

/-- Every integer w with |w| div 10000 = 38, of either sign, decodes to INC with the digits |w| mod 10000. INC answers
the state with xr + 1 in xr and ic advanced, all else unchanged, whenever xr is not CAP (always with CAP infinite);
at xr = CAP it is refused as IndexCapacity. (R130.) -/
def Obligations.IncAddsOneToXr : Prop :=
  (∀ w : Int, w.natAbs / 10000 = 38 → decode w = .known (.inc (w.natAbs % 10000))) ∧
  (∀ (d : Nat) (s : State),
    (s.cfg.cap.map Int.ofNat ≠ some s.xr → exec (.inc d) s = .next { s with xr := s.xr + 1, ic := nextIc s.ic }) ∧
    (s.cfg.cap.map Int.ofNat = some s.xr → exec (.inc d) s = .refused .indexCapacity))

/-- Every integer w with |w| div 10000 = 39, of either sign, decodes to DEC with the digits |w| mod 10000. DEC answers
the state with xr - 1 in xr and ic advanced, all else unchanged, whenever xr is not -CAP (always with CAP infinite);
at xr = -CAP it is refused as IndexCapacity. (R131.) -/
def Obligations.DecTakesOneFromXr : Prop :=
  (∀ w : Int, w.natAbs / 10000 = 39 → decode w = .known (.dec (w.natAbs % 10000))) ∧
  (∀ (d : Nat) (s : State),
    (s.cfg.cap.map Int.ofNat ≠ some (-s.xr) → exec (.dec d) s = .next { s with xr := s.xr - 1, ic := nextIc s.ic }) ∧
    (s.cfg.cap.map Int.ofNat = some (-s.xr) → exec (.dec d) s = .refused .indexCapacity))

/-- Every integer w with |w| div 10000 = 43, of either sign, decodes to SWAP with the digits |w| mod 10000. SWAP answers
the state with acc and xr exchanged and ic advanced, all else unchanged, whatever the values; after two SWAPs both
registers are as before. (R132.) -/
def Obligations.SwapExchangesAccAndXr : Prop :=
  (∀ w : Int, w.natAbs / 10000 = 43 → decode w = .known (.swap (w.natAbs % 10000))) ∧
  (∀ (d e : Nat) (s : State),
    exec (.swap d) s = .next { s with acc := s.xr, xr := s.acc, ic := nextIc s.ic } ∧
    ∃ t u, exec (.swap d) s = .next t ∧ exec (.swap e) t = .next u ∧ u.acc = s.acc ∧ u.xr = s.xr)

/-- Every integer w with |w| div 10000 = 40, of either sign, decodes to BRANCH with the digits |w| mod 10000. BRANCH
answers the state with ic equal to the operand, all else unchanged, whatever the operand; if that is not below
MEM_SIZE the next step ends the run with OutOfRangeAccess of the target. (R140.) -/
def Obligations.BranchSetsIcToOperand : Prop :=
  (∀ w : Int, w.natAbs / 10000 = 40 → decode w = .known (.branch (w.natAbs % 10000))) ∧
  (∀ (d : Nat) (s : State),
    exec (.branch d) s = .next { s with ic := d } ∧
    (s.status = .running → s.cfg.memSize ≤ d →
      ∃ t, exec (.branch d) s = .next t ∧ step t = .next (t.raise .outOfRangeAccess d) ∧ t.ic = d))

/-- Every integer w with |w| div 10000 = 41, of either sign, decodes to BRANCHNEG with the digits |w| mod 10000.
BRANCHNEG answers the state with ic equal to the operand when acc < 0; to 0 when acc is not negative and ic is 3; to
the sequential successor otherwise; all else is unchanged. (R141.) -/
def Obligations.BranchnegHasTheLocationThreeQuirk : Prop :=
  (∀ w : Int, w.natAbs / 10000 = 41 → decode w = .known (.branchneg (w.natAbs % 10000))) ∧
  (∀ (d : Nat) (s : State),
    (s.acc < 0 → exec (.branchneg d) s = .next { s with ic := d }) ∧
    (0 ≤ s.acc → s.ic = 3 → exec (.branchneg d) s = .next { s with ic := 0 }) ∧
    (0 ≤ s.acc → s.ic ≠ 3 → exec (.branchneg d) s = .next { s with ic := nextIc s.ic }))

/-- Every integer w with |w| div 10000 = 42, of either sign, decodes to BRANCHZERO with the digits |w| mod 10000.
BRANCHZERO answers the state with ic equal to the operand when acc = 0 and to the sequential successor otherwise, at
every location; all else is unchanged. (R142.) -/
def Obligations.BranchzeroBranchesOnZero : Prop :=
  (∀ w : Int, w.natAbs / 10000 = 42 → decode w = .known (.branchzero (w.natAbs % 10000))) ∧
  (∀ (d : Nat) (s : State),
    (s.acc = 0 → exec (.branchzero d) s = .next { s with ic := d }) ∧
    (s.acc ≠ 0 → exec (.branchzero d) s = .next { s with ic := nextIc s.ic }))

/-- HALT answers the state with status HaltedNormal of its two page fields, unchecked (decision D13), ic and all else
unchanged; the decoder takes the fields from the operand as operand div 100 and operand mod 100; the dump request is
that pair, and a fault makes none (decision D15). (46_halt.md (HALT, dump request), 92_eei_decisions.md D13, D15.) -/
def Obligations.HaltEndsTheRunWithItsPages : Prop :=
  (∀ (p q : Nat) (s : State), exec (.halt p q) s = .next { s with status := .haltedNormal p q }) ∧
  (∀ w : Int, w.natAbs / 10000 = 45 → decode w = .known (.halt (w.natAbs % 10000 / 100) (w.natAbs % 10000 % 100))) ∧
  (∀ (s : State) (p q : Nat), s.dumpRequest = some (p, q) ↔ s.status = .haltedNormal p q)

/-- Two integers with the same opcode among 23, 26, 31, 33, 35, 37, 38, 39 and 43 (LOADIDX, STOREIDX, ADDX, SUBTRACTX,
DIVIDEX, MULTIPLYX, INC, DEC, SWAP) decode to instructions with their own digits that answer alike in every state.
That the digits are not even checked is the spec's decision D10. (30_encoding.md section 2 (R54),
92_eei_decisions.md D10.) -/
def Obligations.OperandDigitsOfClassNAreIgnored : Prop :=
  ∀ v w : Int, v.natAbs / 10000 = w.natAbs / 10000 → w.natAbs / 10000 ∈ [23, 26, 31, 33, 35, 37, 38, 39, 43] →
    ∃ i j, decode v = .known i ∧ decode w = .known j ∧ i.operand = v.natAbs % 10000 ∧ j.operand = w.natAbs % 10000 ∧
      i.opcode = j.opcode ∧ ∀ s : State, exec i s = exec j s

/-- For every instruction that answers a next state: if it stores nothing, memory is the same, at every location; if it
stores to address a (the operand of READ and STORE, xr of STOREIDX), every location other than a reads as before,
whether it completed or faulted. (20_memory.md section 1 (R32, R33).) -/
def Obligations.OnlyTheStoredLocationChanges : Prop :=
  ∀ (i : Instr) (s t : State), exec i s = .next t →
    (storeAddress s i = none → t.mem = s.mem ∧ ∀ b, t.mem.read b = s.mem.read b) ∧
    (∀ a, storeAddress s i = some a → ∀ b : Nat, (b : Int) ≠ a → t.mem.read b = s.mem.read b)

/-- For every instruction that answers a next state: acc is unchanged unless the instruction is LOAD, LOADIM, LOADIDX,
one of the eight arithmetic ones or SWAP; xr unless LOADX, INC, DEC or SWAP; ir and the parameters always; the input
unless READ; the events unless READ or WRITE; the status unless HALT or a fault of the instruction. (10_state.md
section 1 (R10, R18, R19), 41_io.md.) -/
def Obligations.OnlyTheNamedRegistersChange : Prop :=
  ∀ (i : Instr) (s t : State), exec i s = .next t →
    (writesAcc i = false → t.acc = s.acc) ∧ (writesXr i = false → t.xr = s.xr) ∧ t.ir = s.ir ∧ t.cfg = s.cfg ∧
    ((∀ a, i ≠ .read a) → t.input = s.input) ∧ ((∀ a, i ≠ .read a) → (∀ a, i ≠ .write a) → t.events = s.events) ∧
    (t.status = s.status ∨ (∃ p q, i = .halt p q ∧ t.status = .haltedNormal p q) ∨
      ∃ k v, k ∈ faultsOf i ∧ t.status = .haltedFault k v s.ic)

/-- raise kind(info) gives the state whose status is HaltedFault(kind, info, at = ic), every other field as it was; that
state has no step (log entry 5), it reports kind, info and location and makes no dump request, and a move of the
surroundings other than reset keeps its status. The contents of the record are the spec's decisions D5 and D6.
(60_exceptions.md sections 1 and 3 (R181, R182, R191, R192), 92_eei_decisions.md D5, D6, D15,
notes/assumptions/5.md.) -/
def Obligations.RaiseRecordsTheFaultAndNothingElse : Prop :=
  ∀ (s : State) (k : FaultKind) (v : Int),
    s.raise k v = { s with status := .haltedFault k v s.ic } ∧ step (s.raise k v) = .fault .runEnded ∧
    (s.raise k v).faultReport = some (k, v, s.ic) ∧ (s.raise k v).dumpRequest = none ∧
    ∀ (mv : HostMove) (t : State), (s.raise k v).hostMove mv = some t → mv ≠ .reset → t.status = .haltedFault k v s.ic

/-- For an instruction executed in a running state: a fault in the next state is of a kind the table of R187 gives the
instruction; OutOfRangeAccess carries the instruction's data address and is raised exactly when that address is
outside memory, before any other fault (decision D24). (60_exceptions.md sections 1 and 2 (R187, R188),
92_eei_decisions.md D24.) -/
def Obligations.FaultsEachInstructionCanRaise : Prop :=
  ∀ (i : Instr) (s : State), s.status = .running →
    (∀ t k v a, exec i s = .next t → t.status = .haltedFault k v a →
      k ∈ faultsOf i ∧ (k = .outOfRangeAccess → dataAddress s i = some v ∧ ¬ s.inMemory v)) ∧
    (∀ a, dataAddress s i = some a → ¬ s.inMemory a → exec i s = .next (s.raise .outOfRangeAccess a))

/-- When an instruction executed in a running state ends the run with a fault, the state after it is the state before
with the fault record in status, at the instruction's own location, and, for AccumulatorOverflow alone, the exact
out-of-range result in acc (decisions D5 and D23). (60_exceptions.md sections 1 and 3 (R183, R184, R185, R186,
R189), 92_eei_decisions.md D5, D23.) -/
def Obligations.FaultsArePrecise : Prop :=
  ∀ (i : Instr) (s t : State) (k : FaultKind) (v : Int) (a : Nat),
    s.status = .running → exec i s = .next t → t.status = .haltedFault k v a →
    t = { s with status := .haltedFault k v s.ic, acc := if k = .accumulatorOverflow then v else s.acc } ∧
    (k = .accumulatorOverflow → v < -999999 ∨ 999999 < v) ∧ (k = .divisionByZero → v = s.ic)

/-- From every state that meets the invariant, a step that answers a next state gives a state that meets it: admissible
parameters, canonical memory with every entry below MEM_SIZE, ic at most 9999, every storage element within CAP, an
idle engine's registers zero, a normal halt's pages those of the HALT word in ir, a fault record that names ic and
the value R182 gives it. (10_state.md sections 3 and 7 (R14, R23), 20_memory.md section 1 (R30), 44_index.md (R133),
60_exceptions.md section 1 (R182).) -/
def Obligations.EveryStepKeepsTheInvariant : Prop :=
  ∀ s t : State, s.Inv → step s = .next t → t.Inv

/-- For all admissible parameters the reset state meets the invariant; the model's own reset state, at the reference
parameters (log entry 1), does. (10_state.md section 8 (R24), notes/assumptions/1.md, notes/assumptions/15.md.) -/
def Obligations.ResetStateMeetsTheInvariant : Prop :=
  (∀ c : Config, c.wf = true → (State.resetWith c).Inv) ∧ State.reset.Inv

/-- From every state in which memory cells, acc, xr, ir and the pending inputs are words, a step that leaves xr a word
gives such a state again (acc is out of range only once the run has ended by an overflow). The rule is the spec's
own derivation. (10_state.md section 7 (R22).) -/
def Obligations.WordsStayWordsWhileXrDoes : Prop :=
  ∀ s t : State, s.WordInv → step s = .next t → inW t.xr → t.WordInv

/-- From every state that meets the invariant, reset, a loader write, start and a supplied input value give a state that
meets it. (50_interfaces.md (R161, R162, R164), 70_reset_and_hazards.md section 1 (R210), notes/assumptions/16.md.) -/
def Obligations.HostMovesKeepTheInvariant : Prop :=
  ∀ (s t : State) (mv : HostMove), s.Inv → s.hostMove mv = some t → t.Inv

/-- When a running engine with ic in memory steps to a next state, the word fetched settles what is appended to the
history and what is consumed. A READ of a location of memory with a value at the source appends the trace event, the
input request and that value, and consumes it; with no value the state is the same (the model's choice for R79's
blocked READ, log entry 4). A WRITE of a location of memory appends the trace event and the output of the addressed
cell. A READ or WRITE of a location outside memory, every other instruction, and every word with an unknown opcode
append the trace event alone; none of them consumes input. The order is the spec's decision D9, READ's address check
before the input D7. (50_interfaces.md (R164, R165, R166, R167), 40_cycle.md sections 1 and 3 (R73, R79),
92_eei_decisions.md D7, D9, notes/assumptions/4.md.) -/
def Obligations.EventsOfOneCycle : Prop :=
  ∀ (s t : State) (w : Int) (e : Event), s.status = .running → s.ic < s.cfg.memSize → w = s.mem.read s.ic →
    e = .trace s.ic w (w.natAbs / 10000) (w.natAbs % 10000) → step s = .next t →
    (∀ a, decode w = .known (.read a) → a < s.cfg.memSize → s.input = [] → t = s) ∧
    (∀ a v rest, decode w = .known (.read a) → a < s.cfg.memSize → s.input = v :: rest →
      t.events = s.events ++ [e, .inputRequest, .input v] ∧ t.input = rest) ∧
    (∀ a, decode w = .known (.write a) → a < s.cfg.memSize →
      t.events = s.events ++ [e, .output (s.mem.read a)] ∧ t.input = s.input) ∧
    (∀ a, decode w = .known (.read a) ∨ decode w = .known (.write a) → s.cfg.memSize ≤ a →
      t.events = s.events ++ [e] ∧ t.input = s.input) ∧
    ((∀ a, decode w ≠ .known (.read a)) → (∀ a, decode w ≠ .known (.write a)) →
      t.events = s.events ++ [e] ∧ t.input = s.input)

/-- For every list of loader writes of words to existing, distinct locations, launching it succeeds, and the state at
the first fetch has acc, xr, ir and ic zero, status Running, the loaded word at every location the loader wrote,
zero everywhere else, and words only. Reset, load and start as moves are the spec's decision D14.
(70_reset_and_hazards.md sections 1 and 2 (R211, R212), 50_interfaces.md (R162), 92_eei_decisions.md D14, D22.) -/
def Obligations.LaunchGivesTheStateAtTheFirstFetch : Prop :=
  ∀ (c : Config) (prog : List (Nat × Int)), (∀ e ∈ prog, e.1 < c.memSize ∧ inW e.2) → prog.Pairwise (fun e f => e.1 ≠ f.1) →
    ∃ s, State.launch c prog = some s ∧ s.cfg = c ∧ s.acc = 0 ∧ s.xr = 0 ∧ s.ir = 0 ∧ s.ic = 0 ∧ s.status = .running ∧
      (∀ e ∈ prog, s.mem.read e.1 = e.2) ∧ (∀ a, (∀ e ∈ prog, e.1 ≠ a) → s.mem.read a = 0) ∧ s.WordInv

/-- Once the engine has been started, a move of the surroundings is a reset or changes nothing but what the input source
holds, which then ends with one word more. That loader writes, a second start and a delivery of a value that is not
a word have no move, and that a delivery lengthens the source's own list, is the model's reading of R163, R164 and
R169 (log entry 16, DEDUCED). (50_interfaces.md (R163, R164, R169), 20_memory.md section 5 (R44),
92_eei_decisions.md D21, notes/assumptions/16.md.) -/
def Obligations.SurroundingsWriteNothingAfterStart : Prop :=
  ∀ (s t : State) (mv : HostMove), s.status ≠ .idle → s.hostMove mv = some t →
    (mv = .reset ∧ t = State.resetWith s.cfg) ∨ (∃ v, inW v ∧ mv = .supply v ∧ t = { s with input := s.input ++ [v] })

/-- From every state, in any status, reset gives acc, xr, ir and ic zero and every memory location zero; start then
gives status Running with all of these still zero. (R24.) -/
def Obligations.ResetZeroesEverything : Prop :=
  ∀ s : State,
    s.hostReset.acc = 0 ∧ s.hostReset.xr = 0 ∧ s.hostReset.ir = 0 ∧ s.hostReset.ic = 0 ∧ (∀ a, s.hostReset.mem.read a = 0) ∧
    ∃ t, s.hostReset.hostStart = some t ∧ t.status = .running ∧ t.acc = 0 ∧ t.xr = 0 ∧ t.ir = 0 ∧ t.ic = 0 ∧ (∀ a, t.mem.read a = 0)

/-- When a running engine steps a STORE or STOREIDX of acc, or a READ with a word v at the source, whose address is the
sequential successor of its own location, the following step fetches the stored value: it executes the instruction
the value decodes to (a READ with no input left waits in the same state, log entry 4), or ends the run with
UnknownOpcode when the value's opcode is not recognised. acc and xr are as before. The rule is the spec's own
derivation. (20_memory.md section 5 (R42), 10_state.md section 3 (R14), 40_cycle.md section 3 (R74, R79),
notes/assumptions/4.md.) -/
def Obligations.StoredWordIsSeenByTheNextFetch : Prop :=
  ∀ (s : State) (a : Nat) (v : Int), s.mem.wf → s.status = .running → s.ic < s.cfg.memSize → a < s.cfg.memSize → nextIc s.ic = a →
    ((decode (s.mem.read s.ic) = .known (.store a) ∧ v = s.acc) ∨
      (∃ d, decode (s.mem.read s.ic) = .known (.storeidx d) ∧ s.xr = a ∧ v = s.acc) ∨
      (decode (s.mem.read s.ic) = .known (.read a) ∧ inW v ∧ ∃ rest, s.input = v :: rest)) →
    ∃ t, step s = .next t ∧ t.ic = a ∧ t.acc = s.acc ∧ t.xr = s.xr ∧ t.mem.read a = v ∧
      (∀ i, decode v = .known i → t.waits i = false → step t = exec i (t.fetched v)) ∧
      (∀ i, decode v = .known i → t.waits i = true → step t = .next t) ∧
      (∀ c, decode v = .unknown c → step t = .next ((t.fetched v).raise .unknownOpcode c))

/-- For every location 0..9999 the page is a div 100, the row (a mod 100) div 10 and the column a mod 10, these are at
most 99, 9 and 9, and page * 100 + row * 10 + col is the location; conversely every page 0..99, row and column 0..9
give a location 0..9999 with that page, row and column. (R153.) -/
def Obligations.PageArithmeticRoundTrips : Prop :=
  (∀ a : Nat, a ≤ 9999 →
    pageOf a = a / 100 ∧ rowOf a = a % 100 / 10 ∧ colOf a = a % 10 ∧ pageOf a ≤ 99 ∧ rowOf a ≤ 9 ∧ colOf a ≤ 9 ∧
      locationOf (pageOf a) (rowOf a) (colOf a) = a) ∧
  (∀ p r c : Nat, p ≤ 99 → r ≤ 9 → c ≤ 9 →
    locationOf p r c = p * 100 + r * 10 + c ∧ locationOf p r c ≤ 9999 ∧
      pageOf (locationOf p r c) = p ∧ rowOf (locationOf p r c) = r ∧ colOf (locationOf p r c) = c)

/-- From every running state, wherever ic points, a step answers a next state (the instruction completed, a fault ended
the run, or a READ waits), except that INC at xr = CAP, DEC at xr = -CAP and a READ offered a value that is not a
word are refused; no step of a running engine stops in any other way. That a blocked READ answers the same state as
its next one is the model's choice (log entry 4; R79 says that no step is enabled), and so is the refusal of a value
that is not a word (log entry 6, one of U4's two ways). (40_cycle.md section 3 (R77, R78, R79), 44_index.md (R133),
93_implementation_defined.md U2, U4, notes/assumptions/4.md, notes/assumptions/6.md.) -/
def Obligations.RunningStepAnswersNextStateUnlessRefused : Prop :=
  ∀ s : State, s.status = .running →
    (∃ t, step s = .next t) ∨
    (step s = .refused .indexCapacity ∧ ∃ d, (decode (s.mem.read s.ic) = .known (.inc d) ∧ s.cfg.cap.map Int.ofNat = some s.xr) ∨
      (decode (s.mem.read s.ic) = .known (.dec d) ∧ s.cfg.cap.map Int.ofNat = some (-s.xr))) ∨
    (step s = .refused .inputOutOfRange ∧ ∃ a v rest, decode (s.mem.read s.ic) = .known (.read a) ∧ s.input = v :: rest ∧ ¬ inW v)
end

