-- ==== Sys2Proof/Laws/Arithmetic.lean ====
section
/-! SUPPORT. Laws/Arithmetic.lean: the spec's formulas for `tdiv` and `trem` are Lean's truncating division. -/

namespace Sys2Proof.Machine

/-- The case of a dividend and a divisor that are not negative. -/
theorem tdiv_natCast (m n : Nat) : tdiv m n = ((m / n : Nat) : Int) := by
  unfold tdiv
  rcases Nat.eq_zero_or_pos m with rfl | hm
  · simp
  · rcases Nat.eq_zero_or_pos n with rfl | hn
    · simp
    · rw [Int.sign_natCast_of_ne_zero (by omega), Int.sign_natCast_of_ne_zero (by omega)]
      simp

theorem tdiv_neg_left (a b : Int) : tdiv (-a) b = -tdiv a b := by
  simp [tdiv, Int.sign_neg]

theorem tdiv_neg_right (a b : Int) : tdiv a (-b) = -tdiv a b := by
  simp [tdiv, Int.sign_neg]

theorem tdiv_eq_int_tdiv (a b : Int) : tdiv a b = a.tdiv b := by
  obtain ⟨m, rfl | rfl⟩ := Int.eq_nat_or_neg a <;> obtain ⟨n, rfl | rfl⟩ := Int.eq_nat_or_neg b <;>
    simp [tdiv_neg_left, tdiv_neg_right, tdiv_natCast]

theorem trem_eq_int_tmod (a b : Int) : trem a b = a.tmod b := by
  have h := Int.mul_tdiv_add_tmod a b
  unfold trem
  rw [tdiv_eq_int_tdiv]
  omega

/-- The magnitude of a quotient is at most the dividend's (R119). -/
theorem natAbs_tdiv_le (a b : Int) : (tdiv a b).natAbs ≤ a.natAbs := by
  have h1 : a.sign.natAbs ≤ 1 := by rw [Int.natAbs_sign]; split <;> simp
  have h2 : b.sign.natAbs ≤ 1 := by rw [Int.natAbs_sign]; split <;> simp
  have h3 : a.natAbs / b.natAbs ≤ a.natAbs := Nat.div_le_self _ _
  unfold tdiv
  rw [Int.natAbs_mul, Int.natAbs_mul, Int.natAbs_natCast]
  calc a.sign.natAbs * b.sign.natAbs * (a.natAbs / b.natAbs)
      ≤ 1 * 1 * a.natAbs := Nat.mul_le_mul (Nat.mul_le_mul h1 h2) h3
    _ = a.natAbs := by omega

/-- The magnitude of a remainder is at most the dividend's. -/
theorem natAbs_trem_le (a b : Int) : (trem a b).natAbs ≤ a.natAbs := by
  rw [trem_eq_int_tmod, Int.natAbs_tmod]
  exact Nat.mod_le _ _

end Sys2Proof.Machine
end

