-- ==== Sys2Proof/Laws/Config.lean ====
section
/-! SUPPORT. Laws/Config.lean: which values a storage element holds (R3), and when INC and DEC are at the limit (R133). -/

namespace Sys2Proof.Machine

theorem Config.holds_zero (c : Config) : c.holds 0 = true := by
  unfold Config.holds
  split <;> simp

/-- Every word fits a storage element (R3: `CAP` exceeds `WORD_MAX`). -/
theorem Config.holds_of_inW {c : Config} (h : c.wf = true) {v : Int} (hv : inW v) : c.holds v = true := by
  unfold Config.wf at h
  unfold Config.holds
  split at h <;> simp_all [wordMax, inW]
  omega

theorem Config.holds_mono {c : Config} {u v : Int} (h : c.holds u = true) (hv : v.natAbs ≤ u.natAbs) : c.holds v = true := by
  unfold Config.holds at *
  split at h <;> simp_all
  omega

theorem atCapacity_iff (c : Config) (v : Int) : atCapacity c v = true ↔ c.cap.map Int.ofNat = some v := by
  unfold atCapacity
  cases c.cap with
  | none => simp
  | some n => simp [eq_comm]

/-- INC below the limit stays within it. -/
theorem Config.holds_succ {c : Config} {v : Int} (h : c.holds v = true) (hc : atCapacity c v = false) :
    c.holds (v + 1) = true := by
  obtain ⟨m, cap⟩ := c
  cases cap with
  | none => rfl
  | some n => simp [Config.holds, atCapacity] at *; omega

/-- DEC above the lower limit stays within it. -/
theorem Config.holds_pred {c : Config} {v : Int} (h : c.holds v = true) (hc : atCapacity c (-v) = false) :
    c.holds (v - 1) = true := by
  obtain ⟨m, cap⟩ := c
  cases cap with
  | none => rfl
  | some n => simp [Config.holds, atCapacity] at *; omega

theorem inW_zero : inW 0 := by decide

theorem inW_mono {u v : Int} (h : inW u) (hv : v.natAbs ≤ u.natAbs) : inW v := by
  unfold inW wordMax at *
  omega

end Sys2Proof.Machine
end

