-- ==== Sys2Proof/Laws/Memory.lean ====
section
/-! SUPPORT. Laws/Memory.lean: the laws of the array: a read after a write, and that a write keeps the canonical form. -/

namespace Sys2Proof.Machine

@[simp] theorem Memory.read_nil (a : Nat) : Memory.read [] a = 0 := rfl

@[simp] theorem Memory.read_cons (b : Nat) (u : Int) (m : Memory) (a : Nat) :
    Memory.read ((b, u) :: m) a = if a = b then u else Memory.read m a := rfl

/-- A location whose entry is not listed holds 0. -/
theorem Memory.read_unlisted {m : Memory} {a : Nat} (h : ∀ c ∈ m, c.1 ≠ a) : m.read a = 0 := by
  induction m with
  | nil => rfl
  | cons c m ih =>
    obtain ⟨b, u⟩ := c
    have hb : a ≠ b := fun e => h (b, u) (by simp) e.symm
    rw [Memory.read_cons, if_neg hb]
    exact ih fun c hc => h c (List.mem_cons_of_mem _ hc)

/-- What is read is 0 or a listed value. -/
theorem Memory.read_zero_or_mem (m : Memory) (a : Nat) : m.read a = 0 ∨ (a, m.read a) ∈ m := by
  induction m with
  | nil => exact .inl rfl
  | cons c m ih =>
    obtain ⟨b, u⟩ := c
    by_cases h : a = b
    · subst h
      simp
    · rcases ih with h0 | h1
      · exact .inl (by simp [h, h0])
      · exact .inr (by simp [h, h1])

/-- A property that holds of 0 and of every listed value holds of what is read. -/
theorem Memory.read_of_cells {p : Int → Prop} {m : Memory} (h0 : p 0) (h : ∀ c ∈ m, p c.2) (a : Nat) : p (m.read a) := by
  rcases m.read_zero_or_mem a with e | e
  · rw [e]; exact h0
  · exact h _ e

/-- An entry after a write is an old entry or the one written. -/
theorem Memory.mem_write {m : Memory} {a : Nat} {v : Int} {c : Nat × Int} (h : c ∈ m.write a v) : c ∈ m ∨ c = (a, v) := by
  induction m with
  | nil =>
    by_cases hv : v = 0
    · simp [Memory.write, hv] at h
    · exact .inr (by simpa [Memory.write, hv] using h)
  | cons d m ih =>
    obtain ⟨b, u⟩ := d
    unfold Memory.write at h
    split at h
    · split at h
      · exact .inl h
      · rcases List.mem_cons.mp h with e | e
        · exact .inr e
        · exact .inl e
    · split at h
      · split at h
        · exact .inl (List.mem_cons_of_mem _ h)
        · rcases List.mem_cons.mp h with e | e
          · exact .inr e
          · exact .inl (List.mem_cons_of_mem _ e)
      · rcases List.mem_cons.mp h with e | e
        · exact .inl (by simp [e])
        · rcases ih e with e' | e'
          · exact .inl (List.mem_cons_of_mem _ e')
          · exact .inr e'

/-- The tail of a canonical memory is canonical. -/
theorem Memory.wf_tail {c : Nat × Int} {m : Memory} (h : Memory.wf (c :: m)) : Memory.wf m :=
  ⟨(List.pairwise_cons.mp h.1).2, fun d hd => h.2 d (List.mem_cons_of_mem _ hd)⟩

/-- A write keeps the canonical form. -/
theorem Memory.write_wf {m : Memory} (h : m.wf) (a : Nat) (v : Int) : (m.write a v).wf := by
  induction m with
  | nil => by_cases hv : v = 0 <;> simp [Memory.write, Memory.wf, hv]
  | cons d m ih =>
    obtain ⟨b, u⟩ := d
    have hd := List.pairwise_cons.mp h.1
    have hu : u ≠ 0 := h.2 (b, u) (by simp)
    have ht := Memory.wf_tail h
    unfold Memory.write
    split
    · rename_i hab
      split
      · exact h
      · rename_i hv
        refine ⟨List.pairwise_cons.mpr ⟨fun c hc => ?_, h.1⟩, fun c hc => ?_⟩
        · rcases List.mem_cons.mp hc with e | e
          · rw [e]; exact hab
          · exact Nat.lt_trans hab (hd.1 c e)
        · rcases List.mem_cons.mp hc with e | e
          · rw [e]; exact hv
          · exact h.2 c e
    · split
      · rename_i hab
        subst hab
        split
        · exact ht
        · rename_i hv
          refine ⟨List.pairwise_cons.mpr ⟨fun c hc => hd.1 c hc, hd.2⟩, fun c hc => ?_⟩
          rcases List.mem_cons.mp hc with e | e
          · rw [e]; exact hv
          · exact ht.2 c e
      · rename_i hlt hne
        refine ⟨List.pairwise_cons.mpr ⟨fun c hc => ?_, (ih ht).1⟩, fun c hc => ?_⟩
        · rcases Memory.mem_write hc with e | e
          · exact hd.1 c e
          · rw [e]; show b < a; omega
        · rcases List.mem_cons.mp hc with e | e
          · rw [e]; exact hu
          · exact (ih ht).2 c e

/-- A read of another location does not see a write. -/
theorem Memory.read_write_other (m : Memory) {a b : Nat} (v : Int) (h : b ≠ a) : (m.write a v).read b = m.read b := by
  induction m with
  | nil => by_cases hv : v = 0 <;> simp [Memory.write, hv, h]
  | cons d m ih =>
    obtain ⟨c, u⟩ := d
    unfold Memory.write
    split
    · split <;> simp [h]
    · split
      · rename_i hac
        subst hac
        split <;> simp [h]
      · simp [ih]

/-- A read of the location written gives the value written. -/
theorem Memory.read_write_same {m : Memory} (h : m.wf) (a : Nat) (v : Int) : (m.write a v).read a = v := by
  induction m with
  | nil => by_cases hv : v = 0 <;> simp [Memory.write, hv]
  | cons d m ih =>
    obtain ⟨c, u⟩ := d
    have hd := List.pairwise_cons.mp h.1
    unfold Memory.write
    split
    · rename_i hac
      split
      · rename_i hv
        rw [hv]
        refine Memory.read_unlisted fun e he => ?_
        rcases List.mem_cons.mp he with e' | e'
        · rw [e']; show c ≠ a; omega
        · have := hd.1 e e'
          simp only at this
          omega
      · simp
    · split
      · rename_i hac
        subst hac
        split
        · rename_i hv
          rw [hv]
          refine Memory.read_unlisted fun e he => ?_
          have := hd.1 e he
          simp only at this
          omega
        · simp
      · rename_i hlt hne
        simp [hne, ih (Memory.wf_tail h)]

end Sys2Proof.Machine
end

