-- ==== Sys2Proof/Laws/State.lean ====
section
/-! SUPPORT. Laws/State.lean: each field after each update of the state, so that no proof unfolds a record update. -/

namespace Sys2Proof.Machine

@[simp] theorem State.setAcc_cfg (s : State) (v : Int) : (s.setAcc v).cfg = s.cfg := rfl
@[simp] theorem State.setAcc_mem (s : State) (v : Int) : (s.setAcc v).mem = s.mem := rfl
@[simp] theorem State.setAcc_acc (s : State) (v : Int) : (s.setAcc v).acc = v := rfl
@[simp] theorem State.setAcc_xr (s : State) (v : Int) : (s.setAcc v).xr = s.xr := rfl
@[simp] theorem State.setAcc_ic (s : State) (v : Int) : (s.setAcc v).ic = s.ic := rfl
@[simp] theorem State.setAcc_ir (s : State) (v : Int) : (s.setAcc v).ir = s.ir := rfl
@[simp] theorem State.setAcc_status (s : State) (v : Int) : (s.setAcc v).status = s.status := rfl
@[simp] theorem State.setAcc_input (s : State) (v : Int) : (s.setAcc v).input = s.input := rfl
@[simp] theorem State.setAcc_events (s : State) (v : Int) : (s.setAcc v).events = s.events := rfl

@[simp] theorem State.setXr_cfg (s : State) (v : Int) : (s.setXr v).cfg = s.cfg := rfl
@[simp] theorem State.setXr_mem (s : State) (v : Int) : (s.setXr v).mem = s.mem := rfl
@[simp] theorem State.setXr_acc (s : State) (v : Int) : (s.setXr v).acc = s.acc := rfl
@[simp] theorem State.setXr_xr (s : State) (v : Int) : (s.setXr v).xr = v := rfl
@[simp] theorem State.setXr_ic (s : State) (v : Int) : (s.setXr v).ic = s.ic := rfl
@[simp] theorem State.setXr_ir (s : State) (v : Int) : (s.setXr v).ir = s.ir := rfl
@[simp] theorem State.setXr_status (s : State) (v : Int) : (s.setXr v).status = s.status := rfl
@[simp] theorem State.setXr_input (s : State) (v : Int) : (s.setXr v).input = s.input := rfl
@[simp] theorem State.setXr_events (s : State) (v : Int) : (s.setXr v).events = s.events := rfl

@[simp] theorem State.setIc_cfg (s : State) (a : Nat) : (s.setIc a).cfg = s.cfg := rfl
@[simp] theorem State.setIc_mem (s : State) (a : Nat) : (s.setIc a).mem = s.mem := rfl
@[simp] theorem State.setIc_acc (s : State) (a : Nat) : (s.setIc a).acc = s.acc := rfl
@[simp] theorem State.setIc_xr (s : State) (a : Nat) : (s.setIc a).xr = s.xr := rfl
@[simp] theorem State.setIc_ic (s : State) (a : Nat) : (s.setIc a).ic = a := rfl
@[simp] theorem State.setIc_ir (s : State) (a : Nat) : (s.setIc a).ir = s.ir := rfl
@[simp] theorem State.setIc_status (s : State) (a : Nat) : (s.setIc a).status = s.status := rfl
@[simp] theorem State.setIc_input (s : State) (a : Nat) : (s.setIc a).input = s.input := rfl
@[simp] theorem State.setIc_events (s : State) (a : Nat) : (s.setIc a).events = s.events := rfl

@[simp] theorem State.setStatus_cfg (s : State) (st : Status) : (s.setStatus st).cfg = s.cfg := rfl
@[simp] theorem State.setStatus_mem (s : State) (st : Status) : (s.setStatus st).mem = s.mem := rfl
@[simp] theorem State.setStatus_acc (s : State) (st : Status) : (s.setStatus st).acc = s.acc := rfl
@[simp] theorem State.setStatus_xr (s : State) (st : Status) : (s.setStatus st).xr = s.xr := rfl
@[simp] theorem State.setStatus_ic (s : State) (st : Status) : (s.setStatus st).ic = s.ic := rfl
@[simp] theorem State.setStatus_ir (s : State) (st : Status) : (s.setStatus st).ir = s.ir := rfl
@[simp] theorem State.setStatus_status (s : State) (st : Status) : (s.setStatus st).status = st := rfl
@[simp] theorem State.setStatus_input (s : State) (st : Status) : (s.setStatus st).input = s.input := rfl
@[simp] theorem State.setStatus_events (s : State) (st : Status) : (s.setStatus st).events = s.events := rfl

@[simp] theorem State.setMem_cfg (s : State) (a : Nat) (v : Int) : (s.setMem a v).cfg = s.cfg := rfl
@[simp] theorem State.setMem_mem (s : State) (a : Nat) (v : Int) : (s.setMem a v).mem = s.mem.write a v := rfl
@[simp] theorem State.setMem_acc (s : State) (a : Nat) (v : Int) : (s.setMem a v).acc = s.acc := rfl
@[simp] theorem State.setMem_xr (s : State) (a : Nat) (v : Int) : (s.setMem a v).xr = s.xr := rfl
@[simp] theorem State.setMem_ic (s : State) (a : Nat) (v : Int) : (s.setMem a v).ic = s.ic := rfl
@[simp] theorem State.setMem_ir (s : State) (a : Nat) (v : Int) : (s.setMem a v).ir = s.ir := rfl
@[simp] theorem State.setMem_status (s : State) (a : Nat) (v : Int) : (s.setMem a v).status = s.status := rfl
@[simp] theorem State.setMem_input (s : State) (a : Nat) (v : Int) : (s.setMem a v).input = s.input := rfl
@[simp] theorem State.setMem_events (s : State) (a : Nat) (v : Int) : (s.setMem a v).events = s.events := rfl

@[simp] theorem State.setInput_cfg (s : State) (l : List Int) : (s.setInput l).cfg = s.cfg := rfl
@[simp] theorem State.setInput_mem (s : State) (l : List Int) : (s.setInput l).mem = s.mem := rfl
@[simp] theorem State.setInput_acc (s : State) (l : List Int) : (s.setInput l).acc = s.acc := rfl
@[simp] theorem State.setInput_xr (s : State) (l : List Int) : (s.setInput l).xr = s.xr := rfl
@[simp] theorem State.setInput_ic (s : State) (l : List Int) : (s.setInput l).ic = s.ic := rfl
@[simp] theorem State.setInput_ir (s : State) (l : List Int) : (s.setInput l).ir = s.ir := rfl
@[simp] theorem State.setInput_status (s : State) (l : List Int) : (s.setInput l).status = s.status := rfl
@[simp] theorem State.setInput_input (s : State) (l : List Int) : (s.setInput l).input = l := rfl
@[simp] theorem State.setInput_events (s : State) (l : List Int) : (s.setInput l).events = s.events := rfl

@[simp] theorem State.emit_cfg (s : State) (e : Event) : (s.emit e).cfg = s.cfg := rfl
@[simp] theorem State.emit_mem (s : State) (e : Event) : (s.emit e).mem = s.mem := rfl
@[simp] theorem State.emit_acc (s : State) (e : Event) : (s.emit e).acc = s.acc := rfl
@[simp] theorem State.emit_xr (s : State) (e : Event) : (s.emit e).xr = s.xr := rfl
@[simp] theorem State.emit_ic (s : State) (e : Event) : (s.emit e).ic = s.ic := rfl
@[simp] theorem State.emit_ir (s : State) (e : Event) : (s.emit e).ir = s.ir := rfl
@[simp] theorem State.emit_status (s : State) (e : Event) : (s.emit e).status = s.status := rfl
@[simp] theorem State.emit_input (s : State) (e : Event) : (s.emit e).input = s.input := rfl
@[simp] theorem State.emit_events (s : State) (e : Event) : (s.emit e).events = s.events ++ [e] := rfl

@[simp] theorem State.advance_cfg (s : State) : (s.advance).cfg = s.cfg := rfl
@[simp] theorem State.advance_mem (s : State) : (s.advance).mem = s.mem := rfl
@[simp] theorem State.advance_acc (s : State) : (s.advance).acc = s.acc := rfl
@[simp] theorem State.advance_xr (s : State) : (s.advance).xr = s.xr := rfl
@[simp] theorem State.advance_ic (s : State) : (s.advance).ic = nextIc s.ic := rfl
@[simp] theorem State.advance_ir (s : State) : (s.advance).ir = s.ir := rfl
@[simp] theorem State.advance_status (s : State) : (s.advance).status = s.status := rfl
@[simp] theorem State.advance_input (s : State) : (s.advance).input = s.input := rfl
@[simp] theorem State.advance_events (s : State) : (s.advance).events = s.events := rfl

@[simp] theorem State.raise_cfg (s : State) (k : FaultKind) (v : Int) : (s.raise k v).cfg = s.cfg := rfl
@[simp] theorem State.raise_mem (s : State) (k : FaultKind) (v : Int) : (s.raise k v).mem = s.mem := rfl
@[simp] theorem State.raise_acc (s : State) (k : FaultKind) (v : Int) : (s.raise k v).acc = s.acc := rfl
@[simp] theorem State.raise_xr (s : State) (k : FaultKind) (v : Int) : (s.raise k v).xr = s.xr := rfl
@[simp] theorem State.raise_ic (s : State) (k : FaultKind) (v : Int) : (s.raise k v).ic = s.ic := rfl
@[simp] theorem State.raise_ir (s : State) (k : FaultKind) (v : Int) : (s.raise k v).ir = s.ir := rfl
@[simp] theorem State.raise_status (s : State) (k : FaultKind) (v : Int) : (s.raise k v).status = .haltedFault k v s.ic := rfl
@[simp] theorem State.raise_input (s : State) (k : FaultKind) (v : Int) : (s.raise k v).input = s.input := rfl
@[simp] theorem State.raise_events (s : State) (k : FaultKind) (v : Int) : (s.raise k v).events = s.events := rfl

@[simp] theorem State.fetched_cfg (s : State) (w : Int) : (s.fetched w).cfg = s.cfg := rfl
@[simp] theorem State.fetched_mem (s : State) (w : Int) : (s.fetched w).mem = s.mem := rfl
@[simp] theorem State.fetched_acc (s : State) (w : Int) : (s.fetched w).acc = s.acc := rfl
@[simp] theorem State.fetched_xr (s : State) (w : Int) : (s.fetched w).xr = s.xr := rfl
@[simp] theorem State.fetched_ic (s : State) (w : Int) : (s.fetched w).ic = s.ic := rfl
@[simp] theorem State.fetched_ir (s : State) (w : Int) : (s.fetched w).ir = w := rfl
@[simp] theorem State.fetched_status (s : State) (w : Int) : (s.fetched w).status = s.status := rfl
@[simp] theorem State.fetched_input (s : State) (w : Int) : (s.fetched w).input = s.input := rfl
@[simp] theorem State.fetched_events (s : State) (w : Int) : (s.fetched w).events = s.events ++ [.trace s.ic w (opcodeOf w) (operandOf w)] := rfl

end Sys2Proof.Machine
end

