-- ==== Sys2Proof/Laws/Ops.lean ====
section
/-! SUPPORT. Laws/Ops.lean: what each shared operation answers, and, read backwards, what a next state from it can be. -/

namespace Sys2Proof.Machine

theorem State.memRead_inside {s : State} {a : Int} (h : s.inMemory a) (k : Int → Result) :
    s.memRead a k = k (s.mem.read a.toNat) := if_pos h

theorem State.memRead_outside {s : State} {a : Int} (h : ¬ s.inMemory a) (k : Int → Result) :
    s.memRead a k = .next (s.raise .outOfRangeAccess a) := if_neg h

/-- A read either continues with the cell's value or takes the fault. -/
theorem State.memRead_cases (s : State) (a : Int) (k : Int → Result) :
    (s.inMemory a ∧ s.memRead a k = k (s.mem.read a.toNat)) ∨
      (¬ s.inMemory a ∧ s.memRead a k = .next (s.raise .outOfRangeAccess a)) := by
  by_cases h : s.inMemory a
  · exact .inl ⟨h, memRead_inside h k⟩
  · exact .inr ⟨h, memRead_outside h k⟩

theorem State.memWrite_inside {s : State} {a : Int} (h : s.inMemory a) (v : Int) (k : State → Result) :
    s.memWrite a v k = k (s.setMem a.toNat v) := if_pos h

theorem State.memWrite_outside {s : State} {a : Int} (h : ¬ s.inMemory a) (v : Int) (k : State → Result) :
    s.memWrite a v k = .next (s.raise .outOfRangeAccess a) := if_neg h

/-- A write either continues from the written memory or takes the fault. -/
theorem State.memWrite_cases (s : State) (a v : Int) (k : State → Result) :
    (s.inMemory a ∧ s.memWrite a v k = k (s.setMem a.toNat v)) ∨
      (¬ s.inMemory a ∧ s.memWrite a v k = .next (s.raise .outOfRangeAccess a)) := by
  by_cases h : s.inMemory a
  · exact .inl ⟨h, memWrite_inside h v k⟩
  · exact .inr ⟨h, memWrite_outside h v k⟩

/-- An operand names a location of memory exactly when it is below `MEM_SIZE`. -/
theorem State.inMemory_absolute (s : State) (a : Nat) : s.inMemory (absolute a) ↔ a < s.cfg.memSize := by
  unfold absolute
  constructor
  · intro h
    exact_mod_cast h.2
  · intro h
    exact ⟨Int.natCast_nonneg a, by exact_mod_cast h⟩

theorem State.readAbsolute_inside {s : State} {a : Nat} (h : a < s.cfg.memSize) (k : Int → Result) :
    s.readAbsolute a k = k (s.mem.read a) := memRead_inside ((s.inMemory_absolute a).mpr h) k

theorem State.readAbsolute_outside {s : State} {a : Nat} (h : s.cfg.memSize ≤ a) (k : Int → Result) :
    s.readAbsolute a k = .next (s.raise .outOfRangeAccess a) :=
  memRead_outside (fun hin => absurd ((s.inMemory_absolute a).mp hin) (Nat.not_lt.mpr h)) k

theorem State.readIndexed_inside {s : State} (h : 0 ≤ s.xr) (h' : s.xr < (s.cfg.memSize : Int)) (k : Int → Result) :
    s.readIndexed k = k (s.mem.read s.xr.toNat) := memRead_inside ⟨h, h'⟩ k

theorem State.readIndexed_outside {s : State} (h : s.xr < 0 ∨ (s.cfg.memSize : Int) ≤ s.xr) (k : Int → Result) :
    s.readIndexed k = .next (s.raise .outOfRangeAccess s.xr) :=
  memRead_outside (by unfold indexed inMemory; omega) k

/-- The checked end of an instruction: the exact result is in `acc`, and either the run ends or `ic` advances. -/
theorem State.finishChecked_cases (s : State) (v : Int) :
    (overflows v ∧ s.finishChecked v = .next ((s.setAcc v).raise .accumulatorOverflow v)) ∨
      (¬ overflows v ∧ s.finishChecked v = .next (s.setAcc v).advance) := by
  by_cases h : overflows v
  · exact .inl ⟨h, if_pos h⟩
  · exact .inr ⟨h, if_neg h⟩

theorem State.finishChecked_word {s : State} {v : Int} (h : ¬ overflows v) :
    s.finishChecked v = .next (s.setAcc v).advance := if_neg h

theorem State.finishChecked_overflow {s : State} {v : Int} (h : overflows v) :
    s.finishChecked v = .next ((s.setAcc v).raise .accumulatorOverflow v) := if_pos h

/-- The end of a division: a zero divisor ends the run with `acc` as it was. -/
theorem State.finishDivide_cases (s : State) (m : Int) :
    (m = 0 ∧ s.finishDivide m = .next (s.raise .divisionByZero s.ic)) ∨
      (m ≠ 0 ∧ s.finishDivide m = .next (s.setAcc (tdiv s.acc m)).advance) := by
  by_cases h : m = 0
  · exact .inl ⟨h, if_pos h⟩
  · exact .inr ⟨h, if_neg h⟩

theorem State.finishDivide_nonzero {s : State} {m : Int} (h : m ≠ 0) :
    s.finishDivide m = .next (s.setAcc (tdiv s.acc m)).advance := if_neg h

theorem State.finishDivide_zero {s : State} {m : Int} (h : m = 0) :
    s.finishDivide m = .next (s.raise .divisionByZero s.ic) := if_pos h

/-- A value that does not overflow is a word, and conversely. -/
theorem not_overflows_iff (v : Int) : ¬ overflows v ↔ inW v := by
  unfold overflows inW wordMax
  omega

/-- The successor of any location is in page 0 (R75). -/
theorem nextIc_lt (ic : Nat) : nextIc ic < pageSize := by
  unfold nextIc pageSize
  split <;> omega

/-- R79: a READ is blocked exactly when its location exists and no input is available. -/
theorem State.blocked_iff (s : State) (a : Nat) : s.blocked a = true ↔ a < s.cfg.memSize ∧ s.input = [] := by
  unfold State.blocked
  rw [Bool.and_eq_true, decide_eq_true_iff, List.isEmpty_iff]
  unfold State.inMemory
  constructor <;> rintro ⟨h1, h2⟩ <;> exact ⟨by omega, h2⟩

end Sys2Proof.Machine
end

