-- ==== Sys2Proof/Laws/Exec.lean ====
section
/-! SUPPORT. Laws/Exec.lean: each arm of `exec` as an equation, and everything an instruction that answers a next state
can be: a wait, one of its faults, or its completion. -/

namespace Sys2Proof.Machine

theorem exec_read (a : Nat) (s : State) : exec (.read a) s =
    execRead a s := rfl

theorem exec_write (a : Nat) (s : State) : exec (.write a) s =
    s.readAbsolute a fun v => .next (s.emit (.output v)).advance := rfl

theorem exec_load (a : Nat) (s : State) : exec (.load a) s =
    s.readAbsolute a fun v => .next (s.setAcc v).advance := rfl

theorem exec_loadim (d : Nat) (s : State) : exec (.loadim d) s =
    .next (s.setAcc (trem s.ir loadimMod)).advance := rfl

theorem exec_loadx (a : Nat) (s : State) : exec (.loadx a) s =
    s.readAbsolute a fun v => .next (s.setXr v).advance := rfl

theorem exec_loadidx (d : Nat) (s : State) : exec (.loadidx d) s =
    s.readIndexed fun v => .next (s.setAcc v).advance := rfl

theorem exec_store (a : Nat) (s : State) : exec (.store a) s =
    s.memWrite (absolute a) s.acc fun t => .next t.advance := rfl

theorem exec_storeidx (d : Nat) (s : State) : exec (.storeidx d) s =
    s.memWrite s.indexed s.acc fun t => .next t.advance := rfl

theorem exec_add (a : Nat) (s : State) : exec (.add a) s =
    s.readAbsolute a fun m => s.finishChecked (s.acc + m) := rfl

theorem exec_addx (d : Nat) (s : State) : exec (.addx d) s =
    s.readIndexed fun m => s.finishChecked (s.acc + m) := rfl

theorem exec_subtract (a : Nat) (s : State) : exec (.subtract a) s =
    s.readAbsolute a fun m => s.finishChecked (s.acc - m) := rfl

theorem exec_subtractx (d : Nat) (s : State) : exec (.subtractx d) s =
    s.readIndexed fun m => s.finishChecked (s.acc - m) := rfl

theorem exec_divide (a : Nat) (s : State) : exec (.divide a) s =
    s.readAbsolute a fun m => s.finishDivide m := rfl

theorem exec_dividex (d : Nat) (s : State) : exec (.dividex d) s =
    s.readIndexed fun m => s.finishDivide m := rfl

theorem exec_multiply (a : Nat) (s : State) : exec (.multiply a) s =
    s.readAbsolute a fun m => s.finishChecked (s.acc * m) := rfl

theorem exec_multiplyx (d : Nat) (s : State) : exec (.multiplyx d) s =
    s.readIndexed fun m => s.finishChecked (s.acc * m) := rfl

theorem exec_inc (d : Nat) (s : State) : exec (.inc d) s =
    if atCapacity s.cfg s.xr then .refused .indexCapacity else .next (s.setXr (s.xr + 1)).advance := rfl

theorem exec_dec (d : Nat) (s : State) : exec (.dec d) s =
    if atCapacity s.cfg (-s.xr) then .refused .indexCapacity else .next (s.setXr (s.xr - 1)).advance := rfl

theorem exec_branch (d : Nat) (s : State) : exec (.branch d) s =
    .next (s.setIc d) := rfl

theorem exec_branchneg (d : Nat) (s : State) : exec (.branchneg d) s =
    execBranchneg d s := rfl

theorem exec_branchzero (d : Nat) (s : State) : exec (.branchzero d) s =
    if isZero s.acc then .next (s.setIc d) else .next s.advance := rfl

theorem exec_swap (d : Nat) (s : State) : exec (.swap d) s =
    .next ((s.setAcc s.xr).setXr s.acc).advance := rfl

theorem exec_halt (p q : Nat) (s : State) : exec (.halt p q) s = .next (s.setStatus (.haltedNormal p q)) := rfl

/-- The next state of an instruction that neither waits nor faults. -/
inductive Completed (s : State) : Instr → State → Prop where
  | read {a v rest} : s.inMemory (absolute a) → s.input = v :: rest → inW v →
      Completed s (.read a) ((((s.setInput rest).emit .inputRequest).emit (.input v)).setMem a v).advance
  | write {a} : s.inMemory (absolute a) → Completed s (.write a) (s.emit (.output (s.mem.read a))).advance
  | load {a} : s.inMemory (absolute a) → Completed s (.load a) (s.setAcc (s.mem.read a)).advance
  | loadim {d} : Completed s (.loadim d) (s.setAcc (trem s.ir loadimMod)).advance
  | loadx {a} : s.inMemory (absolute a) → Completed s (.loadx a) (s.setXr (s.mem.read a)).advance
  | loadidx {d} : s.inMemory s.xr → Completed s (.loadidx d) (s.setAcc (s.mem.read s.xr.toNat)).advance
  | store {a} : s.inMemory (absolute a) → Completed s (.store a) (s.setMem a s.acc).advance
  | storeidx {d} : s.inMemory s.xr → Completed s (.storeidx d) (s.setMem s.xr.toNat s.acc).advance
  | checked {i v} : .accumulatorOverflow ∈ faultsOf i → ¬ overflows v → Completed s i (s.setAcc v).advance
  | divided {i m} : .divisionByZero ∈ faultsOf i → m ≠ 0 → Completed s i (s.setAcc (tdiv s.acc m)).advance
  | inc {d} : atCapacity s.cfg s.xr = false → Completed s (.inc d) (s.setXr (s.xr + 1)).advance
  | dec {d} : atCapacity s.cfg (-s.xr) = false → Completed s (.dec d) (s.setXr (s.xr - 1)).advance
  | branch {d} : Completed s (.branch d) (s.setIc d)
  | negTaken {d} : s.acc < 0 → Completed s (.branchneg d) (s.setIc d)
  | negQuirk {d} : ¬ s.acc < 0 → s.ic = quirkLoc → Completed s (.branchneg d) (s.setIc 0)
  | negPassed {d} : ¬ s.acc < 0 → s.ic ≠ quirkLoc → Completed s (.branchneg d) s.advance
  | zeroTaken {d} : s.acc = 0 → Completed s (.branchzero d) (s.setIc d)
  | zeroPassed {d} : s.acc ≠ 0 → Completed s (.branchzero d) s.advance
  | swap {d} : Completed s (.swap d) ((s.setAcc s.xr).setXr s.acc).advance
  | halt {p q} : Completed s (.halt p q) (s.setStatus (.haltedNormal p q))

/-- What an instruction that answers a next state can be. -/
inductive ExecNext (s : State) (i : Instr) : State → Prop where
  | waits : s.waits i = true → ExecNext s i s
  | outside {a} : dataAddress s i = some a → ¬ s.inMemory a → ExecNext s i (s.raise .outOfRangeAccess a)
  | zeroDivisor : .divisionByZero ∈ faultsOf i → ExecNext s i (s.raise .divisionByZero s.ic)
  | overflow {v} : .accumulatorOverflow ∈ faultsOf i → overflows v →
      ExecNext s i ((s.setAcc v).raise .accumulatorOverflow v)
  | completed {t} : Completed s i t → ExecNext s i t

theorem execNext_of_readAbsolute {s t : State} {i : Instr} {a : Nat} {k : Int → Result} (hd : dataAddress s i = some (a : Int))
    (hk : ∀ v, s.inMemory (absolute a) → v = s.mem.read a → k v = .next t → ExecNext s i t)
    (h : s.readAbsolute a k = .next t) : ExecNext s i t := by
  rcases s.memRead_cases (absolute a) k with ⟨hin, e⟩ | ⟨hout, e⟩
  · exact hk _ hin rfl (e.symm.trans h)
  · cases e.symm.trans h
    exact .outside hd hout

theorem execNext_of_readIndexed {s t : State} {i : Instr} {k : Int → Result} (hd : dataAddress s i = some s.xr)
    (hk : ∀ v, s.inMemory s.xr → v = s.mem.read s.xr.toNat → k v = .next t → ExecNext s i t)
    (h : s.readIndexed k = .next t) : ExecNext s i t := by
  rcases s.memRead_cases s.indexed k with ⟨hin, e⟩ | ⟨hout, e⟩
  · exact hk _ hin rfl (e.symm.trans h)
  · cases e.symm.trans h
    exact .outside hd hout

theorem execNext_of_memWrite {s t : State} {i : Instr} {a v : Int} {k : State → Result} (hd : dataAddress s i = some a)
    (hk : s.inMemory a → k (s.setMem a.toNat v) = .next t → ExecNext s i t)
    (h : s.memWrite a v k = .next t) : ExecNext s i t := by
  rcases s.memWrite_cases a v k with ⟨hin, e⟩ | ⟨hout, e⟩
  · exact hk hin (e.symm.trans h)
  · cases e.symm.trans h
    exact .outside hd hout

theorem execNext_of_finishChecked {s t : State} {i : Instr} {v : Int} (hi : .accumulatorOverflow ∈ faultsOf i)
    (h : s.finishChecked v = .next t) : ExecNext s i t := by
  rcases s.finishChecked_cases v with ⟨ho, e⟩ | ⟨ho, e⟩ <;> cases e.symm.trans h
  · exact .overflow hi ho
  · exact .completed (.checked hi ho)

theorem execNext_of_finishDivide {s t : State} {i : Instr} {m : Int} (hi : .divisionByZero ∈ faultsOf i)
    (h : s.finishDivide m = .next t) : ExecNext s i t := by
  rcases s.finishDivide_cases m with ⟨_, e⟩ | ⟨hm, e⟩ <;> cases e.symm.trans h
  · exact .zeroDivisor hi
  · exact .completed (.divided hi hm)

theorem execNext_read {s t : State} {a : Nat} (h : execRead a s = .next t) : ExecNext s (.read a) t := by
  refine execNext_of_readAbsolute rfl (fun v hin _ h => ?_) h
  split at h
  · rename_i hi
    cases h
    exact .waits (by rw [State.waits, State.blocked, hi]; simpa [absolute] using hin.2)
  · rename_i v rest hi
    split at h
    · rename_i hv
      rw [State.memWrite_inside (by exact hin)] at h
      cases h
      exact .completed (.read hin hi hv)
    · cases h

/-- Everything an instruction that answers a next state can be. -/
theorem exec_cases {i : Instr} {s t : State} (h : exec i s = .next t) : ExecNext s i t := by
  cases i with
  | read a => exact execNext_read h
  | write a =>
    rw [exec_write] at h
    exact execNext_of_readAbsolute rfl (fun v hin hv h => by cases h; subst hv; exact .completed (.write hin)) h
  | load a =>
    rw [exec_load] at h
    exact execNext_of_readAbsolute rfl (fun v hin hv h => by cases h; subst hv; exact .completed (.load hin)) h
  | loadim d => cases h; exact .completed .loadim
  | loadx a =>
    rw [exec_loadx] at h
    exact execNext_of_readAbsolute rfl (fun v hin hv h => by cases h; subst hv; exact .completed (.loadx hin)) h
  | loadidx d =>
    rw [exec_loadidx] at h
    exact execNext_of_readIndexed rfl (fun v hin hv h => by cases h; subst hv; exact .completed (.loadidx hin)) h
  | store a =>
    rw [exec_store] at h
    exact execNext_of_memWrite rfl (fun hin h => by cases h; exact .completed (.store hin)) h
  | storeidx d =>
    rw [exec_storeidx] at h
    exact execNext_of_memWrite rfl (fun hin h => by cases h; exact .completed (.storeidx hin)) h
  | add a => exact execNext_of_readAbsolute rfl (fun _ _ _ h => execNext_of_finishChecked (by simp [faultsOf]) h) h
  | addx d => exact execNext_of_readIndexed rfl (fun _ _ _ h => execNext_of_finishChecked (by simp [faultsOf]) h) h
  | subtract a => exact execNext_of_readAbsolute rfl (fun _ _ _ h => execNext_of_finishChecked (by simp [faultsOf]) h) h
  | subtractx d => exact execNext_of_readIndexed rfl (fun _ _ _ h => execNext_of_finishChecked (by simp [faultsOf]) h) h
  | divide a => exact execNext_of_readAbsolute rfl (fun _ _ _ h => execNext_of_finishDivide (by simp [faultsOf]) h) h
  | dividex d => exact execNext_of_readIndexed rfl (fun _ _ _ h => execNext_of_finishDivide (by simp [faultsOf]) h) h
  | multiply a => exact execNext_of_readAbsolute rfl (fun _ _ _ h => execNext_of_finishChecked (by simp [faultsOf]) h) h
  | multiplyx d => exact execNext_of_readIndexed rfl (fun _ _ _ h => execNext_of_finishChecked (by simp [faultsOf]) h) h
  | inc d =>
    rw [exec_inc] at h
    split at h <;> cases h
    rename_i hc
    exact .completed (.inc (by simpa using hc))
  | dec d =>
    rw [exec_dec] at h
    split at h <;> cases h
    rename_i hc
    exact .completed (.dec (by simpa using hc))
  | branch d => cases h; exact .completed .branch
  | branchneg d =>
    rw [exec_branchneg, execBranchneg] at h
    split at h
    · rename_i hn; cases h; exact .completed (.negTaken hn)
    · rename_i hn
      split at h <;> rename_i hq <;> cases h
      · exact .completed (.negQuirk hn hq)
      · exact .completed (.negPassed hn hq)
  | branchzero d =>
    rw [exec_branchzero] at h
    split at h <;> rename_i hz <;> cases h
    · exact .completed (.zeroTaken hz)
    · exact .completed (.zeroPassed hz)
  | swap d => cases h; exact .completed .swap
  | halt p q => cases h; exact .completed .halt

end Sys2Proof.Machine
end

