-- ==== Sys2Proof/Laws/PerInstr.lean ====
section
/-! SUPPORT. Laws/PerInstr.lean: the family `FitsWord`: the encoding of a well-formed instruction is a word. -/

namespace Sys2Proof.Laws

/-- An opcode of two digits and an operand of four make a word, in either sign. -/
theorem pack_inW (s : Sign) {o p : Nat} (ho : o ≤ 99) (hp : p ≤ operandMax) : inW (pack s o p) := by
  unfold inW pack wordMax
  unfold operandMax at hp
  cases s <;> simp only [signFactor, opcDiv] <;> omega

theorem fourDigits_iff (p : Nat) : fourDigits p = true ↔ p ≤ 9999 := decide_eq_true_iff

theorem twoDigits_iff (p : Nat) : twoDigits p = true ↔ p < 100 := decide_eq_true_iff

theorem opcode_le (i : Instr) : i.opcode ≤ 99 := by cases i <;> simp [Instr.opcode]

namespace FitsWord

/-- In either sign, the encoding of `i` is a word. -/
def Statement (i : Instr) : Prop := i.wf = true → ∀ s : Sign, inW (encode s i)

theorem read (p : Nat) : Statement (.read p) := fun h s => pack_inW s (opcode_le _) (of_decide_eq_true h)

theorem write (p : Nat) : Statement (.write p) := fun h s => pack_inW s (opcode_le _) (of_decide_eq_true h)

theorem load (p : Nat) : Statement (.load p) := fun h s => pack_inW s (opcode_le _) (of_decide_eq_true h)

theorem loadim (p : Nat) : Statement (.loadim p) := fun h s => pack_inW s (opcode_le _) (of_decide_eq_true h)

theorem loadx (p : Nat) : Statement (.loadx p) := fun h s => pack_inW s (opcode_le _) (of_decide_eq_true h)

theorem loadidx (p : Nat) : Statement (.loadidx p) := fun h s => pack_inW s (opcode_le _) (of_decide_eq_true h)

theorem store (p : Nat) : Statement (.store p) := fun h s => pack_inW s (opcode_le _) (of_decide_eq_true h)

theorem storeidx (p : Nat) : Statement (.storeidx p) := fun h s => pack_inW s (opcode_le _) (of_decide_eq_true h)

theorem add (p : Nat) : Statement (.add p) := fun h s => pack_inW s (opcode_le _) (of_decide_eq_true h)

theorem addx (p : Nat) : Statement (.addx p) := fun h s => pack_inW s (opcode_le _) (of_decide_eq_true h)

theorem subtract (p : Nat) : Statement (.subtract p) := fun h s => pack_inW s (opcode_le _) (of_decide_eq_true h)

theorem subtractx (p : Nat) : Statement (.subtractx p) := fun h s => pack_inW s (opcode_le _) (of_decide_eq_true h)

theorem divide (p : Nat) : Statement (.divide p) := fun h s => pack_inW s (opcode_le _) (of_decide_eq_true h)

theorem dividex (p : Nat) : Statement (.dividex p) := fun h s => pack_inW s (opcode_le _) (of_decide_eq_true h)

theorem multiply (p : Nat) : Statement (.multiply p) := fun h s => pack_inW s (opcode_le _) (of_decide_eq_true h)

theorem multiplyx (p : Nat) : Statement (.multiplyx p) := fun h s => pack_inW s (opcode_le _) (of_decide_eq_true h)

theorem inc (p : Nat) : Statement (.inc p) := fun h s => pack_inW s (opcode_le _) (of_decide_eq_true h)

theorem dec (p : Nat) : Statement (.dec p) := fun h s => pack_inW s (opcode_le _) (of_decide_eq_true h)

theorem branch (p : Nat) : Statement (.branch p) := fun h s => pack_inW s (opcode_le _) (of_decide_eq_true h)

theorem branchneg (p : Nat) : Statement (.branchneg p) := fun h s => pack_inW s (opcode_le _) (of_decide_eq_true h)

theorem branchzero (p : Nat) : Statement (.branchzero p) := fun h s => pack_inW s (opcode_le _) (of_decide_eq_true h)

theorem swap (p : Nat) : Statement (.swap p) := fun h s => pack_inW s (opcode_le _) (of_decide_eq_true h)

theorem halt (p q : Nat) : Statement (.halt p q) := by
  intro h s
  have hpq := (Bool.and_eq_true _ _).mp h
  have hp := (twoDigits_iff p).mp hpq.1
  have hq := (twoDigits_iff q).mp hpq.2
  refine pack_inW s (opcode_le _) ?_
  simp only [Instr.operand, operandMax, pageSize]
  omega

end FitsWord

end Sys2Proof.Laws
end

