-- ==== Sys2Proof/Laws/Sign.lean ====
section
/-! SUPPORT. Laws/Sign.lean: no shared operation looks at `ir` (R53): changing it beforehand changes it in the answer and
nothing else. -/

namespace Sys2Proof.Machine

/-- An answer with another value in `ir`. -/
def Result.withIr (v : Int) : Result → Result
  | .next t    => .next { t with ir := v }
  | .fault f   => .fault f
  | .refused r => .refused r

theorem Result.withIr_ite (v : Int) (c : Prop) [Decidable c] (x y : Result) :
    Result.withIr v (if c then x else y) = if c then Result.withIr v x else Result.withIr v y := by
  split <;> rfl

theorem State.memRead_withIr (s : State) (v a : Int) {k k' : Int → Result} (h : ∀ x, k' x = Result.withIr v (k x)) :
    ({ s with ir := v } : State).memRead a k' = Result.withIr v (s.memRead a k) := by
  rcases s.memRead_cases a k with ⟨hin, e⟩ | ⟨hout, e⟩ <;> rw [e]
  · exact (State.memRead_inside (s := { s with ir := v }) hin k').trans (h _)
  · exact State.memRead_outside (s := { s with ir := v }) hout k'

theorem State.memWrite_withIr (s : State) (v a x : Int) {k k' : State → Result}
    (h : ∀ t : State, k' { t with ir := v } = Result.withIr v (k t)) :
    ({ s with ir := v } : State).memWrite a x k' = Result.withIr v (s.memWrite a x k) := by
  rcases s.memWrite_cases a x k with ⟨hin, e⟩ | ⟨hout, e⟩ <;> rw [e]
  · exact (State.memWrite_inside (s := { s with ir := v }) hin x k').trans (h (s.setMem a.toNat x))
  · exact State.memWrite_outside (s := { s with ir := v }) hout x k'

theorem State.finishChecked_withIr (s : State) (v x : Int) :
    ({ s with ir := v } : State).finishChecked x = Result.withIr v (s.finishChecked x) := by
  unfold State.finishChecked
  rw [Result.withIr_ite]
  rfl

theorem State.finishDivide_withIr (s : State) (v m : Int) :
    ({ s with ir := v } : State).finishDivide m = Result.withIr v (s.finishDivide m) := by
  unfold State.finishDivide
  rw [Result.withIr_ite]
  rfl

end Sys2Proof.Machine
end

