-- ==== Sys2Proof/Laws/Step.lean ====
section
/-! SUPPORT. Laws/Step.lean: everything a step that answers a next state can be. -/

namespace Sys2Proof.Machine

/-- The cases of a cycle's next state: a fetch that faults, an unknown opcode, a READ that waits, an instruction. -/
theorem State.cycle_cases {s t : State} (h : s.cycle = .next t) :
    (¬ s.inMemory s.ic ∧ t = s.raise .outOfRangeAccess s.ic) ∨
    (∃ code, s.inMemory s.ic ∧ decode (s.mem.read s.ic) = .unknown code ∧
      t = (s.fetched (s.mem.read s.ic)).raise .unknownOpcode code) ∨
    (∃ i, s.inMemory s.ic ∧ decode (s.mem.read s.ic) = .known i ∧ s.waits i = true ∧ t = s) ∨
    (∃ i, s.inMemory s.ic ∧ decode (s.mem.read s.ic) = .known i ∧ s.waits i = false ∧
      exec i (s.fetched (s.mem.read s.ic)) = .next t) := by
  unfold State.cycle at h
  rcases s.memRead_cases s.ic _ with ⟨hin, e⟩ | ⟨hout, e⟩
  · rw [e, Int.toNat_natCast] at h
    split at h
    · rename_i code hd
      exact .inr (.inl ⟨code, hin, hd, by cases h; rfl⟩)
    · rename_i i hd
      split at h
      · rename_i hw
        exact .inr (.inr (.inl ⟨i, hin, hd, hw, by cases h; rfl⟩))
      · rename_i hw
        exact .inr (.inr (.inr ⟨i, hin, hd, by simpa using hw, h⟩))
  · rw [e] at h
    exact .inl ⟨hout, by cases h; rfl⟩

/-- A step that answers a next state waits in an idle engine, or is a cycle of a running one. -/
theorem step_cases {s t : State} (h : step s = .next t) :
    (s.status = .idle ∧ t = s) ∨ (s.status = .running ∧ s.cycle = .next t) := by
  unfold step at h
  split at h
  · rename_i hs
    exact .inl ⟨hs, by cases h; rfl⟩
  · rename_i hs
    exact .inr ⟨hs, h⟩
  · cases h
  · cases h

/-- Only a READ waits (R79). -/
theorem State.waits_read {s : State} {i : Instr} (h : s.waits i = true) : ∃ a, i = .read a ∧ s.blocked a = true := by
  cases i <;> first | exact ⟨_, rfl, h⟩ | cases h

end Sys2Proof.Machine
end

