-- ==== Sys2Proof/Tests/Slice0.lean ====
section
/-! SUPPORT. Tests/Slice0.lean: the author's own tests. Expected values are those of spec/96_derived_vectors.md (tables
VD, VC, VI, VL, VA, VX, VB, VH; the row is named at each test) or are worked out from the rule named. A `witness_`
theorem shows a state and operands that meet the hypotheses of the obligation of that name, clause by clause. -/

namespace Sys2Proof.Machine.Tests
open Sys2Proof Sys2Proof.Machine

/-- The smaller memory of the vectors. -/
def small : Config := { memSize := 1000, cap := some 2147483647 }

/-- A running engine at location `ic` with the cells `mem` and the word `w` at `ic`. -/
def at_ (ic : Nat) (w : Int) (acc xr : Int) (mem : Memory) : State :=
  { cfg := small, mem := mem.write ic w, acc := acc, xr := xr, ic := ic, ir := 0, status := .running, input := [], events := [] }

/-- The same with values at the input source. -/
def offered (s : State) (l : List Int) : State := { s with input := l }

/-- The answer is a next state with a property. -/
def nextHas (o : Result) (p : State → Bool) : Bool :=
  match o with
  | .next t    => p t
  | .fault _   => false
  | .refused _ => false

/-! ### WellFormed: an ill-formed term for each check -/

theorem test_wf_accepts_boundary : [Instr.read 9999, .write 9999, .load 9999, .loadim 9999, .loadx 9999, .loadidx 9999,
    .store 9999, .storeidx 9999, .add 9999, .addx 9999, .subtract 9999, .subtractx 9999, .divide 9999, .dividex 9999,
    .multiply 9999, .multiplyx 9999, .inc 9999, .dec 9999, .branch 9999, .branchneg 9999, .branchzero 9999, .swap 9999,
    .halt 99 99].all Instr.wf = true := by decide
theorem test_wf_refuses_five_digits : [Instr.read 10000, .write 10000, .load 10000, .loadim 10000, .loadx 10000,
    .loadidx 10000, .store 10000, .storeidx 10000, .add 10000, .addx 10000, .subtract 10000, .subtractx 10000,
    .divide 10000, .dividex 10000, .multiply 10000, .multiplyx 10000, .inc 10000, .dec 10000, .branch 10000,
    .branchneg 10000, .branchzero 10000, .swap 10000].any Instr.wf = false := by decide
theorem test_wf_refuses_start_page : (Instr.halt 100 0).wf = false := by decide
theorem test_wf_refuses_end_page : (Instr.halt 0 100).wf = false := by decide

/-! ### Decode: words written out from the spec's encoding (table VD) -/

theorem test_decode_read : decode 100007 = .known (.read 7) ∧ decode (-100007) = .known (.read 7) := by decide      -- VD1, VD2
theorem test_decode_write : decode 110009 = .known (.write 9) := by decide                                          -- VD3
theorem test_decode_load : decode 200007 = .known (.load 7) := by decide                                            -- VD4
theorem test_decode_loadim : decode (-211234) = .known (.loadim 1234) ∧ decode 219999 = .known (.loadim 9999) := by decide -- VD6, VD7
theorem test_decode_loadx : decode 220020 = .known (.loadx 20) := by decide                                         -- VD8
theorem test_decode_loadidx : decode 239999 = .known (.loadidx 9999) := by decide                                   -- VD9
theorem test_decode_store : decode 250009 = .known (.store 9) := by decide                                          -- VD10
theorem test_decode_storeidx : decode 260000 = .known (.storeidx 0) := by decide                                    -- VD11
theorem test_decode_add : decode 300008 = .known (.add 8) := by decide                                              -- VD12
theorem test_decode_addx : decode 310000 = .known (.addx 0) := by decide                                            -- VD13
theorem test_decode_subtract : decode 320030 = .known (.subtract 30) := by decide                                   -- VD14
theorem test_decode_subtractx : decode 330000 = .known (.subtractx 0) := by decide                                  -- VD15
theorem test_decode_divide : decode 340004 = .known (.divide 4) := by decide                                        -- VD16
theorem test_decode_dividex : decode 350000 = .known (.dividex 0) := by decide                                      -- VD17
theorem test_decode_multiply : decode 360015 = .known (.multiply 15) := by decide                                   -- VD18
theorem test_decode_multiplyx : decode 370000 = .known (.multiplyx 0) := by decide                                  -- VD19
theorem test_decode_inc : decode 380000 = .known (.inc 0) := by decide                                              -- VD20
theorem test_decode_dec : decode 390000 = .known (.dec 0) := by decide                                              -- VD21
theorem test_decode_branch : decode 400001 = .known (.branch 1) ∧ decode (-400007) = .known (.branch 7) := by decide -- VD22, VD23
theorem test_decode_branchneg : decode 410005 = .known (.branchneg 5) := by decide                                  -- VD24
theorem test_decode_branchzero : decode 420008 = .known (.branchzero 8) := by decide                                -- VD25
theorem test_decode_swap : decode 430000 = .known (.swap 0) := by decide                                            -- VD26
theorem test_decode_halt : decode 450205 = .known (.halt 2 5) ∧ decode (-450000) = .known (.halt 0 0) ∧
    decode 459999 = .known (.halt 99 99) := by decide                                                              -- VD27 to VD29
/-- VD30, VD32, VD36, VD37, VD39, VD43, VD44, VD46, VD49, VD51. -/
theorem test_decode_unknown : decode 0 = .unknown 0 ∧ decode 9999 = .unknown 0 ∧ decode 90000 = .unknown 9 ∧
    decode 120000 = .unknown 12 ∧ decode 240000 = .unknown 24 ∧ decode 440000 = .unknown 44 ∧
    decode 460000 = .unknown 46 ∧ decode (-990001) = .unknown 99 ∧ decode 1000000 = .unknown 100 ∧
    decode 2147483647 = .unknown 214748 := by decide
/-- R62: the BCD view is `sign` then six decimal digits, so the hexadecimal digits read as the word. -/
theorem test_decode_table_words : decodeTableWord 25 0x0100007 = some (.read 7) ∧ decodeTableWord 25 0x1211234 = some (.loadim 1234) ∧
    decodeTableWord 25 0x0450205 = some (.halt 2 5) ∧ decodeTableWord 25 0x0240000 = none ∧
    decodeTableWord 25 0x010000A = none := by decide
/-- Log entry 13: the sign with six digits 0 is the view of no word. -/
theorem test_bcd_no_negative_zero : wordOfBcd 0x1000000 = none ∧ wordOfBcd 0x0000000 = some 0 := by decide
theorem test_encode_words : encode .minus (.loadim 1234) = -211234 ∧ encode .plus (.halt 2 5) = 450205 ∧
    encode .plus (.storeidx 0) = 260000 := by decide

/-! ### One cycle: the spec's vectors -/

theorem test_advance_wraps : nextHas (step (at_ 99 380000 0 0 [])) (fun t => t.ic = 0 ∧ t.xr = 1) = true := by decide             -- VC3
theorem test_advance_from_upper_page : nextHas (step (at_ 250 210000 0 0 [])) (fun t => t.ic = 0 ∧ t.acc = 210000) = true := by decide -- VC5
theorem test_fetch_outside : nextHas (step { at_ 0 0 0 0 [] with ic := 1000, ir := 401000 }) (fun t =>
    t.status = .haltedFault .outOfRangeAccess 1000 1000 ∧ t.ir = 401000 ∧ t.events = []) = true := by decide       -- VC7
theorem test_unknown_opcode : nextHas (step (at_ 5 (-990001) 0 0 [])) (fun t =>
    t.status = .haltedFault .unknownOpcode 99 5 ∧ t.ir = -990001 ∧ t.events = [.trace 5 (-990001) 99 1]) = true := by decide -- VC10
theorem test_read : nextHas (step (offered (at_ 0 100007 0 0 []) [4000, 3000])) (fun t => t.mem.read 7 = 4000 ∧ t.input = [3000] ∧
    t.ic = 1 ∧ t.events = [.trace 0 100007 10 7, .inputRequest, .input 4000]) = true := by decide                  -- VI1
theorem test_read_outside : nextHas (step (offered (at_ 0 101000 0 0 []) [5])) (fun t =>
    t.status = .haltedFault .outOfRangeAccess 1000 0 ∧ t.input = [5] ∧ t.events = [.trace 0 101000 10 1000]) = true := by decide -- VI4
theorem test_write : nextHas (step (at_ 5 110009 3 4 [(9, -5)])) (fun t => t.ic = 6 ∧ t.acc = 3 ∧ t.xr = 4 ∧
    t.events = [.trace 5 110009 11 9, .output (-5)]) = true := by decide                                           -- VI8
theorem test_write_outside : nextHas (step (at_ 5 111000 0 0 [])) (fun t => t.status = .haltedFault .outOfRangeAccess 1000 5 ∧
    t.events = [.trace 5 111000 11 1000]) = true := by decide                                                      -- VI10
theorem test_load : nextHas (step (at_ 0 200999 0 0 [(999, -5)])) (fun t => t.acc = -5 ∧ t.ic = 1) = true := by decide              -- VL3
theorem test_load_outside : nextHas (step (at_ 0 201000 77 0 [])) (fun t => t.acc = 77 ∧ t.ic = 0 ∧
    t.status = .haltedFault .outOfRangeAccess 1000 0) = true := by decide                                          -- VL4
theorem test_loadim : nextHas (step (at_ 0 (-211234) 0 0 [])) (fun t => t.acc = -211234 ∧ t.ic = 1) = true := by decide             -- VL6
theorem test_loadx : nextHas (step (at_ 0 220020 9 0 [(20, -1)])) (fun t => t.xr = -1 ∧ t.acc = 9) = true := by decide              -- VL10
theorem test_loadidx : nextHas (step (at_ 1 239999 0 50 [(50, 5)])) (fun t => t.acc = 5 ∧ t.xr = 50) = true := by decide            -- VL12
theorem test_loadidx_negative : nextHas (step (at_ 2 230000 8 (-1) [])) (fun t => t.acc = 8 ∧
    t.status = .haltedFault .outOfRangeAccess (-1) 2) = true := by decide                                          -- VL14
theorem test_store_own_location : nextHas (step (at_ 4 250004 (-1) 0 [])) (fun t => t.mem.read 4 = -1 ∧ t.ir = 250004 ∧ t.ic = 5) = true := by decide -- VL17
theorem test_store_outside : nextHas (step (at_ 4 251000 7 0 [])) (fun t => t.mem = [(4, 251000)] ∧
    t.status = .haltedFault .outOfRangeAccess 1000 4) = true := by decide                                          -- VL18
theorem test_storeidx : nextHas (step (at_ 7 260000 (-12) 60 [])) (fun t => t.mem.read 60 = -12 ∧ t.ic = 8) = true := by decide     -- VL19
theorem test_storeidx_outside : nextHas (step (at_ 7 260000 1 1000000 [])) (fun t =>
    t.status = .haltedFault .outOfRangeAccess 1000000 7) = true := by decide                                       -- VL21
theorem test_add_bound : nextHas (step (at_ 3 300008 500000 0 [(8, 499999)])) (fun t => t.acc = 999999 ∧ t.ic = 4) = true := by decide -- VA5
theorem test_add_overflow : nextHas (step (at_ 3 300008 999999 0 [(8, 1)])) (fun t => t.acc = 1000000 ∧ t.ic = 3 ∧
    t.status = .haltedFault .accumulatorOverflow 1000000 3) = true := by decide                                    -- VA3
theorem test_addx : nextHas (step (at_ 4 310000 12 52 [(52, -2)])) (fun t => t.acc = 10 ∧ t.xr = 52) = true := by decide            -- VA8
theorem test_subtract : nextHas (step (at_ 5 320030 5 0 [(30, 8)])) (fun t => t.acc = -3) = true := by decide                       -- VA11
theorem test_subtract_overflow : nextHas (step (at_ 5 320030 (-999999) 0 [(30, 1)])) (fun t => t.acc = -1000000 ∧
    t.status = .haltedFault .accumulatorOverflow (-1000000) 5) = true := by decide                                 -- VA12
theorem test_subtractx : nextHas (step (at_ 6 330000 10 40 [(40, 25)])) (fun t => t.acc = -15) = true := by decide                  -- VA15
theorem test_divide_negative : nextHas (step (at_ 1 340004 (-7) 0 [(4, 2)])) (fun t => t.acc = -3 ∧ t.ic = 2) = true := by decide   -- VA17
theorem test_divide_by_zero : nextHas (step (at_ 1 340006 9 0 [])) (fun t => t.acc = 9 ∧
    t.status = .haltedFault .divisionByZero 1 1) = true := by decide                                               -- VA23
theorem test_dividex : nextHas (step (at_ 2 350000 100 70 [(70, -3)])) (fun t => t.acc = -33) = true := by decide                   -- VA26
theorem test_multiply_bound : nextHas (step (at_ 7 360015 999 0 [(15, 1001)])) (fun t => t.acc = 999999 ∧ t.ic = 8) = true := by decide -- VA30
theorem test_multiply_overflow : nextHas (step (at_ 7 360015 999999 0 [(15, 999999)])) (fun t =>
    t.status = .haltedFault .accumulatorOverflow 999998000001 7) = true := by decide                               -- VA32
theorem test_multiplyx : nextHas (step (at_ 8 370000 6 80 [(80, 7)])) (fun t => t.acc = 42) = true := by decide                     -- VA36
theorem test_inc_leaves_word_range : nextHas (step (at_ 5 380000 0 999999 [])) (fun t => t.xr = 1000000 ∧ t.ic = 6) = true := by decide -- VX3
theorem test_inc_at_cap : step (at_ 5 380000 0 2147483647 []) = .refused .indexCapacity := by rfl                  -- VX10
theorem test_dec : nextHas (step (at_ 5 390000 0 0 [])) (fun t => t.xr = -1 ∧ t.ic = 6) = true := by decide                         -- VX5
theorem test_dec_at_cap : step (at_ 5 390000 0 (-2147483647) []) = .refused .indexCapacity := by rfl               -- VX11
theorem test_swap : nextHas (step (at_ 2 430000 (-105617) 0 [])) (fun t => t.acc = 0 ∧ t.xr = -105617) = true := by decide          -- VX7
theorem test_branch : nextHas (step (at_ 6 400250 3 4 [])) (fun t => t.ic = 250 ∧ t.acc = 3) = true := by decide                    -- VB4
theorem test_branchneg_quirk : nextHas (step (at_ 3 410005 4 0 [])) (fun t => t.ic = 0) = true := by decide                         -- VB8
theorem test_branchneg_elsewhere : nextHas (step (at_ 13 410050 4 0 [])) (fun t => t.ic = 14) = true := by decide                   -- VB11
theorem test_branchzero_no_quirk : nextHas (step (at_ 3 420008 5 0 [])) (fun t => t.ic = 4) = true := by decide                     -- VB18
theorem test_halt : nextHas (step (at_ 6 450205 7000 1 [])) (fun t => t.status = .haltedNormal 2 5 ∧ t.ic = 6 ∧
    t.dumpRequest = some (2, 5)) = true := by decide                                                               -- VH1
theorem test_halt_start_above_end : nextHas (step (at_ 6 450502 0 0 [])) (fun t => t.status = .haltedNormal 5 2 ∧
    t.dump.map (fun d => d.pages) = some []) = true := by decide                                                   -- VH4, R150
/-- R24: reset is idle; R62 and log entry 14: the placed word is the first one fetched, at location 0. -/
theorem test_first_fetch : nextHas (step (State.reset.withFetchWord 25 0x1211234)) (fun t => t.acc = -211234 ∧ t.ic = 1 ∧
    t.events = [.trace 0 (-211234) 21 1234]) = true := by decide
/-- R152: ten rows of ten; page 1 row 0 column 1 is location 101. -/
theorem test_dump_grid : ((at_ 101 7 0 0 []).pageGrid 1).map (fun g => (g.length, (g.headD []).take 3)) = some (10, [0, 7, 0]) := by decide
theorem test_dump_outside : (at_ 0 0 0 0 []).pageGrid 10 = none := by decide

/-! ### Witnesses: encoding -/

theorem witness_PackSplitsBack_low :
    (0 : Nat) ≤ 99 ∧ (0 : Nat) ≤ 9999 ∧ pack .minus 0 0 = 0 := by decide
theorem witness_PackSplitsBack_high :
    (99 : Nat) ≤ 99 ∧ (9999 : Nat) ≤ 9999 ∧ pack .minus 99 9999 = -999999 := by decide
theorem witness_DecodeOfEncodeGivesInstruction :
    (Instr.halt 99 99).wf = true ∧ (Instr.read 9999).wf = true ∧ (Instr.loadim 0).wf = true := by decide
theorem witness_EncodeOfDecodeGivesWord :
    decode (-459999) = .known (.halt 99 99) ∧ decode 100000 = .known (.read 0) := by decide
theorem witness_RecognisedOpcodesAreThe23 :
    (-459999 : Int).natAbs / 10000 ∈ recognisedOpcodes ∧ (460000 : Int).natAbs / 10000 ∉ recognisedOpcodes ∧
      (100000 : Int).natAbs / 10000 ∈ recognisedOpcodes ∧ (99999 : Int).natAbs / 10000 ∉ recognisedOpcodes := by decide
theorem witness_BcdViewShowsEveryWord :
    inW (-999999) ∧ inW 999999 ∧ ¬ inW 1000000 ∧ wordOfBcd 0x1000001 = some (-1) ∧ wordOfBcd 0 = some 0 := by decide
theorem witness_SignOfWordMattersToLoadimOnly :
    ∀ d, Instr.swap 0 ≠ .loadim d := nofun
theorem witness_TableMaskSelectsTheOpcode :
    inW (-999999) ∧ (99 : Nat) ≤ 99 ∧ (-999999 : Int).natAbs / 10000 = 99 ∧ (0 : Int).natAbs / 10000 = 0 := by decide

/-! ### Witnesses: the cycle -/

theorem witness_StepRunsTheDecodedInstruction :
    (at_ 999 300008 1 0 []).status = .running ∧ (at_ 999 300008 1 0 []).ic < (at_ 999 300008 1 0 []).cfg.memSize ∧
      decode ((at_ 999 300008 1 0 []).mem.read 999) = .known (.add 8) ∧ (at_ 999 300008 1 0 []).waits (.add 8) = false := by decide
theorem witness_StepRunsTheDecodedInstruction_read :
    decode ((offered (at_ 0 100007 0 0 []) [4000]).mem.read 0) = .known (.read 7) ∧
      (offered (at_ 0 100007 0 0 []) [4000]).waits (.read 7) = false ∧ (at_ 0 101000 0 0 []).waits (.read 1000) = false := by decide
theorem witness_StepFaultsOnUnknownOpcode :
    (at_ 5 1000000 0 0 []).status = .running ∧ (at_ 5 1000000 0 0 []).ic < 1000 ∧
      ((at_ 5 1000000 0 0 []).mem.read 5).natAbs / 10000 ∉ recognisedOpcodes ∧ ((at_ 5 0 0 0 []).mem.read 5).natAbs / 10000 ∉ recognisedOpcodes := by decide
theorem witness_StepFaultsOnFetchOutsideMemory :
    ({ at_ 0 0 0 0 [] with ic := 1000 } : State).status = .running ∧ ({ at_ 0 0 0 0 [] with ic := 1000 } : State).cfg.memSize ≤ 1000 := by decide
theorem witness_ReadWithoutInputWaits :
    (at_ 0 100999 0 0 []).status = .running ∧ decode ((at_ 0 100999 0 0 []).mem.read 0) = .known (.read 999) ∧
      999 < (at_ 0 100999 0 0 []).cfg.memSize ∧ (at_ 0 100999 0 0 []).input = [] := by decide
theorem witness_NoCycleOutsideARun :
    State.reset.status = .idle ∧ ((at_ 6 450205 0 0 []).setStatus (.haltedNormal 2 5)).status = .haltedNormal 2 5 ∧
      ((at_ 5 0 0 0 []).raise .unknownOpcode 0).status = .haltedFault .unknownOpcode 0 5 := by decide
theorem witness_SequentialAdvanceWrapsAtPageEnd :
    (0 : Nat) ≤ 98 ∧ (98 : Nat) ≤ 98 ∧ (100 : Nat) ≤ 100 ∧ (100 : Nat) ≤ 9999 := by decide
theorem witness_InstructionCounterAfterEachInstruction_fault :
    (at_ 3 300008 999999 0 [(8, 1)]).status = .running ∧ (at_ 3 300008 999999 0 [(8, 1)]).waits (.add 8) = false ∧
      ∃ t, exec (.add 8) (at_ 3 300008 999999 0 [(8, 1)]) = .next t ∧ t.status = .haltedFault .accumulatorOverflow 1000000 3 ∧ t.ic = 3 := ⟨rfl, rfl, _, rfl, rfl, rfl⟩
theorem witness_InstructionCounterAfterEachInstruction_halt :
    (at_ 6 450205 0 0 []).status = .running ∧ (at_ 6 450205 0 0 []).waits (.halt 2 5) = false ∧
      ∃ t, exec (.halt 2 5) (at_ 6 450205 0 0 []) = .next t ∧ t.ic = 6 := ⟨rfl, rfl, _, rfl, rfl⟩
theorem witness_InstructionCounterAfterEachInstruction_branch :
    (at_ 6 409999 0 0 []).status = .running ∧ (at_ 6 409999 0 0 []).waits (.branch 9999) = false ∧
      ∃ t, exec (.branch 9999) (at_ 6 409999 0 0 []) = .next t ∧ t.ic = 9999 := ⟨rfl, rfl, _, rfl, rfl⟩
theorem witness_InstructionCounterAfterEachInstruction_negative :
    (at_ 3 410005 (-1) 0 []).status = .running ∧ (at_ 3 410005 (-1) 0 []).waits (.branchneg 5) = false ∧
      ∃ t, exec (.branchneg 5) (at_ 3 410005 (-1) 0 []) = .next t ∧ t.ic = 5 := ⟨rfl, rfl, _, rfl, rfl⟩
theorem witness_InstructionCounterAfterEachInstruction_quirk :
    (at_ 3 410005 0 0 []).status = .running ∧ (at_ 3 410005 0 0 []).waits (.branchneg 5) = false ∧
      ∃ t, exec (.branchneg 5) (at_ 3 410005 0 0 []) = .next t ∧ t.ic = 0 := ⟨rfl, rfl, _, rfl, rfl⟩
theorem witness_InstructionCounterAfterEachInstruction_not_negative :
    (at_ 4 410005 0 0 []).status = .running ∧ (at_ 4 410005 0 0 []).waits (.branchneg 5) = false ∧
      ∃ t, exec (.branchneg 5) (at_ 4 410005 0 0 []) = .next t ∧ t.ic = 5 := ⟨rfl, rfl, _, rfl, rfl⟩
theorem witness_InstructionCounterAfterEachInstruction_zero :
    (at_ 2 420008 0 0 []).status = .running ∧ (at_ 2 420008 0 0 []).waits (.branchzero 8) = false ∧
      ∃ t, exec (.branchzero 8) (at_ 2 420008 0 0 []) = .next t ∧ t.ic = 8 := ⟨rfl, rfl, _, rfl, rfl⟩
theorem witness_InstructionCounterAfterEachInstruction_not_zero :
    (at_ 99 420008 1 0 []).status = .running ∧ (at_ 99 420008 1 0 []).waits (.branchzero 8) = false ∧
      ∃ t, exec (.branchzero 8) (at_ 99 420008 1 0 []) = .next t ∧ t.ic = 0 := ⟨rfl, rfl, _, rfl, rfl⟩
theorem witness_InstructionCounterAfterEachInstruction_others :
    (at_ 98 430000 1 0 []).status = .running ∧ (at_ 98 430000 1 0 []).waits (.swap 0) = false ∧
      ∃ t, exec (.swap 0) (at_ 98 430000 1 0 []) = .next t ∧ t.status = .running ∧ t.ic = 99 := ⟨rfl, rfl, _, rfl, rfl, rfl⟩

/-! ### Witnesses: input and output, loads and stores -/

theorem witness_ReadStoresTheInput_completes :
    (offered (at_ 0 100999 0 0 []) [-999999]).mem.wf ∧ 999 < small.memSize ∧ (offered (at_ 0 100999 0 0 []) [-999999]).input = -999999 :: [] ∧ inW (-999999) := by decide
theorem witness_ReadStoresTheInput_not_a_word :
    (offered (at_ 0 100000 0 0 []) [1000000]).mem.wf ∧ 0 < small.memSize ∧ (offered (at_ 0 100000 0 0 []) [1000000]).input = 1000000 :: [] ∧ ¬ inW 1000000 := by decide
theorem witness_ReadStoresTheInput_outside :
    (offered (at_ 0 101000 0 0 []) [5]).mem.wf ∧ (at_ 0 101000 0 0 []).cfg.memSize ≤ 1000 := by decide
theorem witness_WriteEmitsTheCell :
    999 < (at_ 0 110999 0 0 []).cfg.memSize ∧ (at_ 0 111000 0 0 []).cfg.memSize ≤ 1000 := by decide
theorem witness_LoadCopiesCellToAcc :
    999 < (at_ 0 200999 0 0 []).cfg.memSize ∧ (at_ 0 201000 0 0 []).cfg.memSize ≤ 1000 := by decide
theorem witness_LoadxCopiesCellToXr :
    999 < (at_ 0 220999 0 0 []).cfg.memSize ∧ (at_ 0 221000 0 0 []).cfg.memSize ≤ 1000 := by decide
theorem witness_LoadimLoadsTheWholeWord :
    decode ({ at_ 0 0 0 0 [] with ir := -219999 } : State).ir = .known (.loadim 9999) ∧ decode 210000 = .known (.loadim 0) := by decide
theorem witness_LoadidxCopiesIndexedCellToAcc :
    (at_ 1 230000 1 0 []).mem.wf ∧ 0 ≤ (at_ 1 230000 1 0 []).xr ∧ (at_ 1 230000 1 999 []).xr < ((at_ 1 230000 1 999 []).cfg.memSize : Int) ∧
      (at_ 1 230000 1 (-1) []).xr < 0 ∧ ((at_ 1 230000 1 1000 []).cfg.memSize : Int) ≤ (at_ 1 230000 1 1000 []).xr := by decide
theorem witness_StoreWritesAccToCell :
    (at_ 4 250999 (-1) 0 [(999, 3)]).mem.wf ∧ 999 < (at_ 4 250999 (-1) 0 [(999, 3)]).cfg.memSize ∧ (at_ 4 251000 7 0 []).cfg.memSize ≤ 1000 := by decide
theorem witness_StoreidxWritesAccToIndexedCell :
    (at_ 1 260000 1 0 []).mem.wf ∧ 0 ≤ (at_ 1 260000 1 0 []).xr ∧ (at_ 1 260000 1 999 []).xr < ((at_ 1 260000 1 999 []).cfg.memSize : Int) ∧
      (at_ 1 260000 1 (-1) []).xr < 0 ∧ ((at_ 1 260000 1 1000 []).cfg.memSize : Int) ≤ (at_ 1 260000 1 1000 []).xr := by decide

/-! ### Witnesses: arithmetic -/

theorem witness_AddIsExactOrOverflows_low :
    999 < small.memSize ∧ (at_ 3 300999 (-999999) 0 [(999, 0)]).acc + (at_ 3 300999 (-999999) 0 [(999, 0)]).mem.read 999 = -999999 := by decide
theorem witness_AddIsExactOrOverflows_high :
    999 < small.memSize ∧ (at_ 3 300999 500000 0 [(999, 499999)]).acc + (at_ 3 300999 500000 0 [(999, 499999)]).mem.read 999 = 999999 := by decide
theorem witness_AddIsExactOrOverflows_over :
    999 < small.memSize ∧ (at_ 3 300999 999999 0 [(999, 1)]).acc + (at_ 3 300999 999999 0 [(999, 1)]).mem.read 999 = 1000000 := by decide
theorem witness_AddIsExactOrOverflows_under :
    999 < small.memSize ∧ (at_ 3 300999 (-999999) 0 [(999, -1)]).acc + (at_ 3 300999 (-999999) 0 [(999, -1)]).mem.read 999 = -1000000 := by decide
theorem witness_AddIsExactOrOverflows_outside :
    (at_ 3 301000 999999 0 []).cfg.memSize ≤ 1000 := by decide
theorem witness_AddxIsExactOrOverflows_low :
    0 ≤ (at_ 3 310000 (-999999) 999 [(999, 0)]).xr ∧ (at_ 3 310000 (-999999) 999 [(999, 0)]).xr < (small.memSize : Int) ∧ (at_ 3 310000 (-999999) 999 [(999, 0)]).acc + (at_ 3 310000 (-999999) 999 [(999, 0)]).mem.read 999 = -999999 := by decide
theorem witness_AddxIsExactOrOverflows_high :
    0 ≤ (at_ 3 310000 500000 999 [(999, 499999)]).xr ∧ (at_ 3 310000 500000 999 [(999, 499999)]).xr < (small.memSize : Int) ∧ (at_ 3 310000 500000 999 [(999, 499999)]).acc + (at_ 3 310000 500000 999 [(999, 499999)]).mem.read 999 = 999999 := by decide
theorem witness_AddxIsExactOrOverflows_over :
    0 ≤ (at_ 3 310000 999999 999 [(999, 1)]).xr ∧ (at_ 3 310000 999999 999 [(999, 1)]).xr < (small.memSize : Int) ∧ (at_ 3 310000 999999 999 [(999, 1)]).acc + (at_ 3 310000 999999 999 [(999, 1)]).mem.read 999 = 1000000 := by decide
theorem witness_AddxIsExactOrOverflows_under :
    0 ≤ (at_ 3 310000 (-999999) 999 [(999, -1)]).xr ∧ (at_ 3 310000 (-999999) 999 [(999, -1)]).xr < (small.memSize : Int) ∧ (at_ 3 310000 (-999999) 999 [(999, -1)]).acc + (at_ 3 310000 (-999999) 999 [(999, -1)]).mem.read 999 = -1000000 := by decide
theorem witness_AddxIsExactOrOverflows_outside :
    (at_ 3 310000 1 (-1) []).xr < 0 ∧ (small.memSize : Int) ≤ (at_ 3 310000 1 1000 []).xr := by decide
theorem witness_SubtractIsExactOrOverflows_low :
    999 < small.memSize ∧ (at_ 3 320999 0 0 [(999, 999999)]).acc - (at_ 3 320999 0 0 [(999, 999999)]).mem.read 999 = -999999 := by decide
theorem witness_SubtractIsExactOrOverflows_high :
    999 < small.memSize ∧ (at_ 3 320999 999998 0 [(999, -1)]).acc - (at_ 3 320999 999998 0 [(999, -1)]).mem.read 999 = 999999 := by decide
theorem witness_SubtractIsExactOrOverflows_over :
    999 < small.memSize ∧ (at_ 3 320999 999999 0 [(999, -1)]).acc - (at_ 3 320999 999999 0 [(999, -1)]).mem.read 999 = 1000000 := by decide
theorem witness_SubtractIsExactOrOverflows_under :
    999 < small.memSize ∧ (at_ 3 320999 (-999999) 0 [(999, 1)]).acc - (at_ 3 320999 (-999999) 0 [(999, 1)]).mem.read 999 = -1000000 := by decide
theorem witness_SubtractIsExactOrOverflows_outside :
    (at_ 3 321000 999999 0 []).cfg.memSize ≤ 1000 := by decide
theorem witness_SubtractxIsExactOrOverflows_low :
    0 ≤ (at_ 3 330000 0 999 [(999, 999999)]).xr ∧ (at_ 3 330000 0 999 [(999, 999999)]).xr < (small.memSize : Int) ∧ (at_ 3 330000 0 999 [(999, 999999)]).acc - (at_ 3 330000 0 999 [(999, 999999)]).mem.read 999 = -999999 := by decide
theorem witness_SubtractxIsExactOrOverflows_high :
    0 ≤ (at_ 3 330000 999998 999 [(999, -1)]).xr ∧ (at_ 3 330000 999998 999 [(999, -1)]).xr < (small.memSize : Int) ∧ (at_ 3 330000 999998 999 [(999, -1)]).acc - (at_ 3 330000 999998 999 [(999, -1)]).mem.read 999 = 999999 := by decide
theorem witness_SubtractxIsExactOrOverflows_over :
    0 ≤ (at_ 3 330000 999999 999 [(999, -1)]).xr ∧ (at_ 3 330000 999999 999 [(999, -1)]).xr < (small.memSize : Int) ∧ (at_ 3 330000 999999 999 [(999, -1)]).acc - (at_ 3 330000 999999 999 [(999, -1)]).mem.read 999 = 1000000 := by decide
theorem witness_SubtractxIsExactOrOverflows_under :
    0 ≤ (at_ 3 330000 (-999999) 999 [(999, 1)]).xr ∧ (at_ 3 330000 (-999999) 999 [(999, 1)]).xr < (small.memSize : Int) ∧ (at_ 3 330000 (-999999) 999 [(999, 1)]).acc - (at_ 3 330000 (-999999) 999 [(999, 1)]).mem.read 999 = -1000000 := by decide
theorem witness_SubtractxIsExactOrOverflows_outside :
    (at_ 3 330000 1 (-1) []).xr < 0 ∧ (small.memSize : Int) ≤ (at_ 3 330000 1 1000 []).xr := by decide
theorem witness_MultiplyIsExactOrOverflows_low :
    999 < small.memSize ∧ (at_ 3 360999 999999 0 [(999, -1)]).acc * (at_ 3 360999 999999 0 [(999, -1)]).mem.read 999 = -999999 := by decide
theorem witness_MultiplyIsExactOrOverflows_high :
    999 < small.memSize ∧ (at_ 3 360999 999 0 [(999, 1001)]).acc * (at_ 3 360999 999 0 [(999, 1001)]).mem.read 999 = 999999 := by decide
theorem witness_MultiplyIsExactOrOverflows_over :
    999 < small.memSize ∧ (at_ 3 360999 1000 0 [(999, 1000)]).acc * (at_ 3 360999 1000 0 [(999, 1000)]).mem.read 999 = 1000000 := by decide
theorem witness_MultiplyIsExactOrOverflows_under :
    999 < small.memSize ∧ (at_ 3 360999 (-1000) 0 [(999, 1000)]).acc * (at_ 3 360999 (-1000) 0 [(999, 1000)]).mem.read 999 = -1000000 := by decide
theorem witness_MultiplyIsExactOrOverflows_outside :
    (at_ 3 361000 999999 0 []).cfg.memSize ≤ 1000 := by decide
theorem witness_MultiplyxIsExactOrOverflows_low :
    0 ≤ (at_ 3 370000 999999 999 [(999, -1)]).xr ∧ (at_ 3 370000 999999 999 [(999, -1)]).xr < (small.memSize : Int) ∧ (at_ 3 370000 999999 999 [(999, -1)]).acc * (at_ 3 370000 999999 999 [(999, -1)]).mem.read 999 = -999999 := by decide
theorem witness_MultiplyxIsExactOrOverflows_high :
    0 ≤ (at_ 3 370000 999 999 [(999, 1001)]).xr ∧ (at_ 3 370000 999 999 [(999, 1001)]).xr < (small.memSize : Int) ∧ (at_ 3 370000 999 999 [(999, 1001)]).acc * (at_ 3 370000 999 999 [(999, 1001)]).mem.read 999 = 999999 := by decide
theorem witness_MultiplyxIsExactOrOverflows_over :
    0 ≤ (at_ 3 370000 1000 999 [(999, 1000)]).xr ∧ (at_ 3 370000 1000 999 [(999, 1000)]).xr < (small.memSize : Int) ∧ (at_ 3 370000 1000 999 [(999, 1000)]).acc * (at_ 3 370000 1000 999 [(999, 1000)]).mem.read 999 = 1000000 := by decide
theorem witness_MultiplyxIsExactOrOverflows_under :
    0 ≤ (at_ 3 370000 (-1000) 999 [(999, 1000)]).xr ∧ (at_ 3 370000 (-1000) 999 [(999, 1000)]).xr < (small.memSize : Int) ∧ (at_ 3 370000 (-1000) 999 [(999, 1000)]).acc * (at_ 3 370000 (-1000) 999 [(999, 1000)]).mem.read 999 = -1000000 := by decide
theorem witness_MultiplyxIsExactOrOverflows_outside :
    (at_ 3 370000 1 (-1) []).xr < 0 ∧ (small.memSize : Int) ≤ (at_ 3 370000 1 1000 []).xr := by decide
theorem witness_DivideTruncatesOrFaults :
    999 < small.memSize ∧ (at_ 1 340999 (-7) 0 [(999, 2)]).mem.read 999 ≠ 0 ∧ (at_ 1 340999 0 0 []).mem.read 999 = 0 ∧
      (at_ 1 341000 9 0 []).cfg.memSize ≤ 1000 := by decide
theorem witness_DividexTruncatesOrFaults :
    0 ≤ (at_ 1 350000 (-7) 999 [(999, 2)]).xr ∧ (at_ 1 350000 (-7) 999 [(999, 2)]).xr < (small.memSize : Int) ∧
      (at_ 1 350000 (-7) 999 [(999, 2)]).mem.read 999 ≠ 0 ∧ (at_ 1 350000 0 999 []).mem.read 999 = 0 ∧
      (at_ 1 350000 9 (-1) []).xr < 0 ∧ (small.memSize : Int) ≤ (at_ 1 350000 9 1000 []).xr := by decide
theorem witness_DivisionTruncatesTowardZero :
    (-2 : Int) ≠ 0 ∧ tdiv (-7) (-2) = 3 ∧ tdiv 7 (-2) = -3 ∧ (0 : Int) ≤ 7 ∧ (-7 : Int) ≤ 0 ∧ inW (-999999) := by decide

/-! ### Witnesses: index register, branches, HALT -/

theorem witness_IncAddsOneToXr :
    (at_ 5 380000 0 2147483646 []).cfg.cap.map Int.ofNat ≠ some (at_ 5 380000 0 2147483646 []).xr ∧
      (at_ 5 380000 0 2147483647 []).cfg.cap.map Int.ofNat = some (at_ 5 380000 0 2147483647 []).xr ∧
      (none : Option Nat).map Int.ofNat ≠ some 2147483647 := by decide
theorem witness_DecTakesOneFromXr :
    (at_ 5 390000 0 (-2147483646) []).cfg.cap.map Int.ofNat ≠ some (-(at_ 5 390000 0 (-2147483646) []).xr) ∧
      (at_ 5 390000 0 (-2147483647) []).cfg.cap.map Int.ofNat = some (-(at_ 5 390000 0 (-2147483647) []).xr) := by decide
theorem witness_BranchSetsIcToOperand :
    (at_ 0 401000 0 0 []).status = .running ∧ (at_ 0 401000 0 0 []).cfg.memSize ≤ 1000 := by decide
theorem witness_BranchnegHasTheLocationThreeQuirk :
    (at_ 3 410005 (-1) 0 []).acc < 0 ∧ 0 ≤ (at_ 3 410005 0 0 []).acc ∧ (at_ 3 410005 0 0 []).ic = 3 ∧
      0 ≤ (at_ 4 410005 0 0 []).acc ∧ (at_ 4 410005 0 0 []).ic ≠ 3 := by decide
theorem witness_BranchzeroBranchesOnZero :
    (at_ 2 420008 0 0 []).acc = 0 ∧ (at_ 2 420008 (-1) 0 []).acc ≠ 0 := by decide
theorem witness_HaltEndsTheRunWithItsPages :
    (-459999 : Int).natAbs / 10000 = 45 ∧ ((at_ 6 450000 0 0 []).setStatus (.haltedNormal 99 0)).status = .haltedNormal 99 0 := by decide

/-! ### Witnesses: frames and faults -/

theorem witness_OnlyTheStoredLocationChanges_no_store :
    ∃ t, exec (.load 999) (at_ 0 200999 0 0 [(999, -5)]) = .next t ∧ storeAddress (at_ 0 200999 0 0 [(999, -5)]) (.load 999) = none := ⟨_, rfl, rfl⟩
theorem witness_OnlyTheStoredLocationChanges_store :
    ∃ t, exec (.store 999) (at_ 4 250999 7 0 [(998, 1)]) = .next t ∧ storeAddress (at_ 4 250999 7 0 [(998, 1)]) (.store 999) = some 999 ∧ ((998 : Nat) : Int) ≠ 999 ∧ t.mem.read 999 = 7 := ⟨_, rfl, rfl, by decide, by decide⟩
theorem witness_OnlyTheStoredLocationChanges_indexed :
    ∃ t, exec (.storeidx 0) (at_ 7 260000 7 (-1) []) = .next t ∧ storeAddress (at_ 7 260000 7 (-1) []) (.storeidx 0) = some (-1) := ⟨_, rfl, rfl⟩
theorem witness_OnlyTheNamedRegistersChange_acc :
    ∃ t, exec (.inc 0) (at_ 5 380000 9 1 []) = .next t ∧ writesAcc (.inc 0) = false ∧ t.acc = 9 := ⟨_, rfl, rfl, rfl⟩
theorem witness_OnlyTheNamedRegistersChange_xr :
    ∃ t, exec (.add 8) (at_ 3 300008 1 4 []) = .next t ∧ writesXr (.add 8) = false ∧ t.xr = 4 := ⟨_, rfl, rfl, rfl⟩
theorem witness_OnlyTheNamedRegistersChange_input :
    ∃ t, exec (.swap 0) (offered (at_ 3 430000 1 4 []) [1]) = .next t ∧ (∀ a, Instr.swap 0 ≠ .read a) ∧ (∀ a, Instr.swap 0 ≠ .write a) ∧ t.input = [1] := ⟨_, rfl, nofun, nofun, rfl⟩
theorem witness_FaultsEachInstructionCanRaise_overflow :
    (at_ 7 360015 1000 0 [(15, 1000)]).status = .running ∧ ∃ t, exec (.multiply 15) (at_ 7 360015 1000 0 [(15, 1000)]) = .next t ∧ t.status = .haltedFault .accumulatorOverflow 1000000 7 := ⟨rfl, _, rfl, rfl⟩
theorem witness_FaultsEachInstructionCanRaise_address :
    (at_ 1 341000 9 0 []).status = .running ∧ ∃ t, exec (.divide 1000) (at_ 1 341000 9 0 []) = .next t ∧ t.status = .haltedFault .outOfRangeAccess 1000 1 ∧
      dataAddress (at_ 1 341000 9 0 []) (.divide 1000) = some 1000 ∧ ¬ (at_ 1 341000 9 0 []).inMemory 1000 := ⟨rfl, _, rfl, rfl, rfl, by decide⟩
theorem witness_FaultsArePrecise_division :
    (at_ 2 350000 100 70 []).status = .running ∧ ∃ t, exec (.dividex 0) (at_ 2 350000 100 70 []) = .next t ∧ t.status = .haltedFault .divisionByZero 2 2 ∧ t.acc = 100 := ⟨rfl, _, rfl, rfl, rfl⟩
theorem witness_FaultsArePrecise_overflow :
    (at_ 6 330000 (-999999) 40 [(40, 1)]).status = .running ∧ ∃ t, exec (.subtractx 0) (at_ 6 330000 (-999999) 40 [(40, 1)]) = .next t ∧ t.status = .haltedFault .accumulatorOverflow (-1000000) 6 ∧ t.acc = -1000000 := ⟨rfl, _, rfl, rfl, rfl⟩
theorem witness_OperandDigitsOfClassNAreIgnored :
    (-439999 : Int).natAbs / 10000 = (430000 : Int).natAbs / 10000 ∧ (430000 : Int).natAbs / 10000 ∈ [23, 26, 31, 33, 35, 37, 38, 39, 43] := by decide
theorem witness_RaiseRecordsTheFaultAndNothingElse :
    ∃ t, ((at_ 5 0 0 0 []).raise .unknownOpcode 0).hostMove (.supply 7) = some t ∧ HostMove.supply 7 ≠ .reset := ⟨_, rfl, by decide⟩
/-- The encoding clauses: for each opcode the largest word, negative, meets the clause's hypothesis. -/
theorem witness_encoding_clauses :
    [11, 20, 21, 22, 23, 25, 26, 30, 31, 32, 33, 34, 35, 36, 37, 38, 39, 40, 41, 42, 43].all
      (fun o : Nat => decide ((-((o * 10000 + 9999 : Nat) : Int)).natAbs / 10000 = o)) = true := by decide

/-! ### Witnesses: invariants -/

/-- A running engine past its reset: registers, memory and input in use. -/
def busy : State := offered (at_ 3 300008 999999 (-1) [(8, 1), (999, -999999)]) [4000]

/-- A run that a fault has ended. -/
def stopped : State := ({ busy with ir := 300008 } : State).raise .outOfRangeAccess (-1)

/-- A run that HALT has ended. -/
def finished : State := ({ busy with ir := 450205 } : State).setStatus (.haltedNormal 2 5)

theorem busy_inv : busy.Inv :=
  ⟨by decide, by decide, by decide, by decide, by decide, fun _ => by decide, by decide, by decide, trivial⟩
theorem stopped_inv : stopped.Inv :=
  ⟨by decide, by decide, by decide, by decide, by decide, fun _ => by decide, by decide, by decide, rfl, by decide⟩
theorem finished_inv : finished.Inv :=
  ⟨by decide, by decide, by decide, by decide, by decide, fun _ => by decide, by decide, by decide, rfl⟩
theorem busy_wordInv : busy.WordInv := ⟨by decide, fun _ => by decide, by decide, by decide, by decide⟩
theorem witness_EveryStepKeepsTheInvariant :
    busy.Inv ∧ ∃ t, step busy = .next t ∧ t.status = .haltedFault .accumulatorOverflow 1000000 3 := ⟨busy_inv, _, rfl, rfl⟩
theorem witness_ResetStateMeetsTheInvariant :
    Config.wf { memSize := 100, cap := some 1000000 } = true ∧ Config.wf { memSize := 10000, cap := none } = true ∧
      Config.wf { memSize := 150, cap := none } = false ∧ Config.wf { memSize := 100, cap := some 999999 } = false := by decide
theorem witness_WordsStayWordsWhileXrDoes :
    busy.WordInv ∧ ∃ t, step busy = .next t ∧ inW t.xr := ⟨busy_wordInv, _, rfl, by decide⟩
theorem witness_HostMovesKeepTheInvariant_reset :
    stopped.Inv ∧ ∃ t, stopped.hostMove (.reset) = some t := ⟨stopped_inv, _, rfl⟩
theorem witness_HostMovesKeepTheInvariant_supply :
    busy.Inv ∧ ∃ t, busy.hostMove (.supply (-999999)) = some t := ⟨busy_inv, _, rfl⟩
theorem witness_HostMovesKeepTheInvariant_load :
    (State.resetWith small).Inv ∧ ∃ t, (State.resetWith small).hostMove (.load 999 (-999999)) = some t :=
  ⟨⟨by decide, by decide, by decide, by decide, by decide, fun _ => by decide, by decide, by decide, rfl, rfl, rfl, rfl⟩, _, rfl⟩
theorem witness_HostMovesKeepTheInvariant_start :
    (State.resetWith small).Inv ∧ ∃ t, (State.resetWith small).hostMove (.start) = some t :=
  ⟨⟨by decide, by decide, by decide, by decide, by decide, fun _ => by decide, by decide, by decide, rfl, rfl, rfl, rfl⟩, _, rfl⟩

/-! ### Witnesses: the machine and its surroundings -/

theorem witness_EventsOfOneCycle_read :
    (offered (at_ 0 100999 0 0 []) [4000]).status = .running ∧ (offered (at_ 0 100999 0 0 []) [4000]).ic < (offered (at_ 0 100999 0 0 []) [4000]).cfg.memSize ∧ (decode ((offered (at_ 0 100999 0 0 []) [4000]).mem.read 0) = .known (.read 999) ∧ 999 < small.memSize ∧ (offered (at_ 0 100999 0 0 []) [4000]).input = [4000]) ∧
      ∃ t, step (offered (at_ 0 100999 0 0 []) [4000]) = .next t ∧ t.events = [.trace 0 100999 10 999, .inputRequest, .input 4000] := ⟨rfl, by decide, by decide, _, rfl, rfl⟩
theorem witness_EventsOfOneCycle_waits :
    (at_ 0 100999 0 0 []).status = .running ∧ (at_ 0 100999 0 0 []).ic < (at_ 0 100999 0 0 []).cfg.memSize ∧ (decode ((at_ 0 100999 0 0 []).mem.read 0) = .known (.read 999) ∧ 999 < small.memSize ∧ (at_ 0 100999 0 0 []).input = []) ∧
      ∃ t, step (at_ 0 100999 0 0 []) = .next t ∧ t.events = [] := ⟨rfl, by decide, by decide, _, rfl, rfl⟩
theorem witness_EventsOfOneCycle_write :
    (at_ 5 110999 0 0 [(999, -5)]).status = .running ∧ (at_ 5 110999 0 0 [(999, -5)]).ic < (at_ 5 110999 0 0 [(999, -5)]).cfg.memSize ∧ (decode ((at_ 5 110999 0 0 [(999, -5)]).mem.read 5) = .known (.write 999) ∧ 999 < small.memSize) ∧
      ∃ t, step (at_ 5 110999 0 0 [(999, -5)]) = .next t ∧ t.events = [.trace 5 110999 11 999, .output (-5)] := ⟨rfl, by decide, by decide, _, rfl, rfl⟩
theorem witness_EventsOfOneCycle_outside :
    (offered (at_ 5 101000 0 0 []) [7]).status = .running ∧ (offered (at_ 5 101000 0 0 []) [7]).ic < (offered (at_ 5 101000 0 0 []) [7]).cfg.memSize ∧ (decode ((offered (at_ 5 101000 0 0 []) [7]).mem.read 5) = .known (.read 1000) ∧ (offered (at_ 5 101000 0 0 []) [7]).cfg.memSize ≤ 1000) ∧
      ∃ t, step (offered (at_ 5 101000 0 0 []) [7]) = .next t ∧ t.events = [.trace 5 101000 10 1000] := ⟨rfl, by decide, by decide, _, rfl, rfl⟩
theorem witness_EventsOfOneCycle_others :
    (at_ 5 430000 0 0 []).status = .running ∧ (at_ 5 430000 0 0 []).ic < (at_ 5 430000 0 0 []).cfg.memSize ∧ (∀ a, decode ((at_ 5 430000 0 0 []).mem.read 5) ≠ .known (.read a)) ∧ (∀ a, decode ((at_ 5 430000 0 0 []).mem.read 5) ≠ .known (.write a)) ∧
      ∃ t, step (at_ 5 430000 0 0 []) = .next t ∧ t.events = [.trace 5 430000 43 0] := ⟨rfl, by decide, nofun, nofun, _, rfl, rfl⟩
theorem witness_EventsOfOneCycle_unknown :
    (at_ 5 0 0 0 []).status = .running ∧ (at_ 5 0 0 0 []).ic < (at_ 5 0 0 0 []).cfg.memSize ∧ (∀ a, decode ((at_ 5 0 0 0 []).mem.read 5) ≠ .known (.read a)) ∧ (∀ a, decode ((at_ 5 0 0 0 []).mem.read 5) ≠ .known (.write a)) ∧
      ∃ t, step (at_ 5 0 0 0 []) = .next t ∧ t.events = [.trace 5 0 0 0] := ⟨rfl, by decide, nofun, nofun, _, rfl, rfl⟩
theorem witness_LaunchGivesTheStateAtTheFirstFetch :
    (∀ e ∈ [(0, (211234 : Int)), (999, -999999), (1, 450000)], e.1 < small.memSize ∧ inW e.2) ∧
      [(0, (211234 : Int)), (999, -999999), (1, 450000)].Pairwise (fun e f => e.1 ≠ f.1) := by decide
theorem witness_SurroundingsWriteNothingAfterStart :
    busy.status ≠ .idle ∧ (∃ t, busy.hostMove .reset = some t) ∧ (∃ t, busy.hostMove (.supply 999999) = some t) ∧
      busy.hostMove (.load 0 0) = none ∧ busy.hostMove .start = none ∧ finished.hostMove .start = none := ⟨by decide, ⟨_, rfl⟩, ⟨_, rfl⟩, rfl, rfl, rfl⟩
theorem witness_StoredWordIsSeenByTheNextFetch_store :
    (at_ 99 250000 450000 0 []).mem.wf ∧ (at_ 99 250000 450000 0 []).status = .running ∧ (at_ 99 250000 450000 0 []).ic < (at_ 99 250000 450000 0 []).cfg.memSize ∧ 0 < (at_ 99 250000 450000 0 []).cfg.memSize ∧ nextIc (at_ 99 250000 450000 0 []).ic = 0 ∧
      decode ((at_ 99 250000 450000 0 []).mem.read 99) = .known (.store 0) ∧ (at_ 99 250000 450000 0 []).acc = 450000 ∧ decode 450000 = .known (.halt 0 0) := by decide
theorem witness_StoredWordIsSeenByTheNextFetch_storeidx :
    (at_ 98 260000 (-999999) 99 []).mem.wf ∧ (at_ 98 260000 (-999999) 99 []).status = .running ∧ (at_ 98 260000 (-999999) 99 []).ic < (at_ 98 260000 (-999999) 99 []).cfg.memSize ∧ 99 < (at_ 98 260000 (-999999) 99 []).cfg.memSize ∧ nextIc (at_ 98 260000 (-999999) 99 []).ic = 99 ∧
      decode ((at_ 98 260000 (-999999) 99 []).mem.read 98) = .known (.storeidx 0) ∧ (at_ 98 260000 (-999999) 99 []).xr = 99 ∧ (at_ 98 260000 (-999999) 99 []).acc = -999999 ∧ decode (-999999) = .unknown 99 := by decide
theorem witness_StoredWordIsSeenByTheNextFetch_read :
    (offered (at_ 0 100001 0 0 []) [100007]).mem.wf ∧ (offered (at_ 0 100001 0 0 []) [100007]).status = .running ∧ (offered (at_ 0 100001 0 0 []) [100007]).ic < (offered (at_ 0 100001 0 0 []) [100007]).cfg.memSize ∧ 1 < (offered (at_ 0 100001 0 0 []) [100007]).cfg.memSize ∧ nextIc (offered (at_ 0 100001 0 0 []) [100007]).ic = 1 ∧
      decode ((offered (at_ 0 100001 0 0 []) [100007]).mem.read 0) = .known (.read 1) ∧ inW 100007 ∧ (offered (at_ 0 100001 0 0 []) [100007]).input = [100007] ∧ decode 100007 = .known (.read 7) := by decide
theorem witness_StoredWordIsSeenByTheNextFetch_waits :
    ∃ t, step (offered (at_ 0 100001 0 0 []) [100007]) = .next t ∧ t.waits (.read 7) = true ∧ step t = .next t := ⟨_, rfl, rfl, rfl⟩
theorem witness_PageArithmeticRoundTrips :
    (9999 : Nat) ≤ 9999 ∧ (99 : Nat) ≤ 99 ∧ (9 : Nat) ≤ 9 ∧ locationOf 99 9 9 = 9999 ∧ locationOf 0 0 0 = 0 := by decide
theorem witness_RunningStepAnswersNextStateUnlessRefused :
    (∃ t, step busy = .next t) ∧ step (at_ 5 380000 0 2147483647 []) = .refused .indexCapacity ∧
      step (at_ 5 390000 0 (-2147483647) []) = .refused .indexCapacity ∧
      step (offered (at_ 0 100007 0 0 []) [1000000]) = .refused .inputOutOfRange := ⟨⟨_, rfl⟩, rfl, rfl, rfl⟩

end Sys2Proof.Machine.Tests
end

/-! PROOFS. What each instruction leaves unchanged, field by field (R10), and how it leaves `ic` (R15). -/

namespace Sys2Proof.Machine

/-- R187: an instruction with a data address can raise OutOfRangeAccess. -/
theorem outOfRangeAccess_mem_faultsOf {s : State} {i : Instr} {a : Int} (h : dataAddress s i = some a) :
    .outOfRangeAccess ∈ faultsOf i := by
  cases i <;> simp_all [dataAddress, faultsOf]

/-- The instructions that can overflow are arithmetic ones, which write `acc` (R10). -/
theorem writesAcc_of_overflow {i : Instr} (h : .accumulatorOverflow ∈ faultsOf i) : writesAcc i = true := by
  cases i <;> simp_all [writesAcc, faultsOf]

/-- The instructions that can meet a zero divisor are the divisions, which write `acc` (R10). -/
theorem writesAcc_of_zeroDivisor {i : Instr} (h : .divisionByZero ∈ faultsOf i) : writesAcc i = true := by
  cases i <;> simp_all [writesAcc, faultsOf]

/-- R15: where an instruction that completes leaves `ic`. -/
def icAfter (s : State) : Instr → Nat
  | .halt _ _     => s.ic
  | .branch d     => d
  | .branchneg d  => if s.acc < 0 then d else if s.ic = quirkLoc then 0 else nextIc s.ic
  | .branchzero d => if s.acc = 0 then d else nextIc s.ic
  | _             => nextIc s.ic

theorem icAfter_of_mem_faultsOf (s : State) {i : Instr} {k : FaultKind} (h : k ∈ faultsOf i) :
    icAfter s i = nextIc s.ic := by
  cases i with
  | halt | branch | branchneg | branchzero => cases h
  | _ => rfl

section Frame

variable {i : Instr} {s t : State}

theorem exec_cfg (h : exec i s = .next t) : t.cfg = s.cfg := by
  cases exec_cases h with
  | completed hc => cases hc <;> rfl
  | _ => rfl

theorem exec_ir (h : exec i s = .next t) : t.ir = s.ir := by
  cases exec_cases h with
  | completed hc => cases hc <;> rfl
  | _ => rfl

theorem exec_acc (h : exec i s = .next t) (hw : writesAcc i = false) : t.acc = s.acc := by
  cases exec_cases h with
  | overflow hi => simp [writesAcc_of_overflow hi] at hw
  | completed hc =>
    cases hc with
    | load | loadim | loadidx | swap => cases hw
    | checked hi => simp [writesAcc_of_overflow hi] at hw
    | divided hi => simp [writesAcc_of_zeroDivisor hi] at hw
    | _ => rfl
  | _ => rfl

theorem exec_xr (h : exec i s = .next t) (hw : writesXr i = false) : t.xr = s.xr := by
  cases exec_cases h with
  | completed hc =>
    cases hc with
    | loadx | inc | dec | swap => cases hw
    | _ => rfl
  | _ => rfl

theorem exec_input (h : exec i s = .next t) (hr : ∀ a, i ≠ .read a) : t.input = s.input := by
  cases exec_cases h with
  | completed hc =>
    cases hc with
    | read => exact absurd rfl (hr _)
    | _ => rfl
  | _ => rfl

/-- READ takes from the front of the source (R164); no instruction adds to it. -/
theorem exec_input_subset (h : exec i s = .next t) : t.input ⊆ s.input := by
  cases exec_cases h with
  | completed hc =>
    cases hc with
    | read _ hin _ => simp [hin]
    | _ => exact List.Subset.refl _
  | _ => exact List.Subset.refl _

theorem exec_events (h : exec i s = .next t) (hr : ∀ a, i ≠ .read a) (hw : ∀ a, i ≠ .write a) :
    t.events = s.events := by
  cases exec_cases h with
  | completed hc =>
    cases hc with
    | read => exact absurd rfl (hr _)
    | write => exact absurd rfl (hw _)
    | _ => rfl
  | _ => rfl

/-- An instruction waits, completes, or takes one of its faults, with `ic` and the record's `at` at itself (R181, R182). -/
theorem exec_waits_completes_or_faults (h : exec i s = .next t) :
    (s.waits i = true ∧ t = s) ∨ Completed s i t ∨
      ∃ k v, k ∈ faultsOf i ∧ t.status = .haltedFault k v s.ic ∧ t.ic = s.ic := by
  cases exec_cases h with
  | waits hw => exact .inl ⟨hw, rfl⟩
  | outside hd => exact .inr (.inr ⟨_, _, outOfRangeAccess_mem_faultsOf hd, rfl, rfl⟩)
  | zeroDivisor hi => exact .inr (.inr ⟨_, _, hi, rfl, rfl⟩)
  | overflow hi => exact .inr (.inr ⟨_, _, hi, rfl, rfl⟩)
  | completed hc => exact .inr (.inl hc)

/-- Of the instructions that complete, only HALT changes the status (R19). -/
theorem completed_status (h : Completed s i t) :
    t.status = s.status ∨ ∃ p q, i = .halt p q ∧ t.status = .haltedNormal p q := by
  cases h with
  | halt => exact .inr ⟨_, _, rfl, rfl⟩
  | _ => exact .inl rfl

theorem exec_status (h : exec i s = .next t) :
    t.status = s.status ∨ (∃ p q, i = .halt p q ∧ t.status = .haltedNormal p q) ∨
      ∃ k v, k ∈ faultsOf i ∧ t.status = .haltedFault k v s.ic := by
  obtain ⟨-, rfl⟩ | hc | ⟨k, v, hk, hst, -⟩ := exec_waits_completes_or_faults h
  · exact .inl rfl
  · exact (completed_status hc).imp_right .inl
  · exact .inr (.inr ⟨k, v, hk, hst⟩)

theorem completed_ic (h : Completed s i t) : t.ic = icAfter s i := by
  cases h with
  | checked hi => exact (icAfter_of_mem_faultsOf s hi).symm
  | divided hi => exact (icAfter_of_mem_faultsOf s hi).symm
  | negTaken hn => exact (if_pos hn).symm
  | negQuirk hn hq => exact ((if_neg hn).trans (if_pos hq)).symm
  | negPassed hn hq => exact ((if_neg hn).trans (if_neg hq)).symm
  | zeroTaken hz => exact (if_pos hz).symm
  | zeroPassed hz => exact (if_neg hz).symm
  | _ => rfl

end Frame

/-- Settles O42: each field's frame lemma. -/
theorem onlyTheNamedRegistersChange : Obligations.OnlyTheNamedRegistersChange :=
  fun _ _ _ h =>
    ⟨exec_acc h, exec_xr h, exec_ir h, exec_cfg h, exec_input h, exec_events h, exec_status h⟩

/-- Settles O15: an instruction that completes leaves `ic` at `icAfter`; the branches and HALT have no fault. -/
theorem instructionCounterAfterEachInstruction : Obligations.InstructionCounterAfterEachInstruction := by
  intro i s t hrun hwaits h
  obtain ⟨hw, -⟩ | hc | ⟨k, v, hk, hst, hic⟩ := exec_waits_completes_or_faults h
  · simp [hwaits] at hw
  · have hic := completed_ic hc
    refine ⟨fun k v a hf => ?_, ?_, ?_, ?_, ?_, fun _ hhalt hbr hneg hzero => ?_⟩
    · obtain e | ⟨p, q, -, e⟩ := completed_status hc <;> simp [e, hrun] at hf
    · rintro p q rfl; exact hic
    · rintro d rfl; exact hic
    · rintro d rfl; exact hic
    · rintro d rfl; exact hic
    · rw [hic]
      cases i with
      | halt p q => exact absurd rfl (hhalt p q)
      | branch d => exact absurd rfl (hbr d)
      | branchneg d => exact absurd rfl (hneg d)
      | branchzero d => exact absurd rfl (hzero d)
      | _ => rfl
  · refine ⟨fun _ _ _ _ => hic, fun _ _ _ => hic, ?_, ?_, ?_, fun hr => ?_⟩
    · rintro d rfl; cases hk
    · rintro d rfl; cases hk
    · rintro d rfl; cases hk
    · simp [hst] at hr

end Sys2Proof.Machine

/-! PROOFS. What every step keeps: the ranges of the stored values (R3, R22) and the invariant of the machine. -/

namespace Sys2Proof.Machine

/-! ### The decoder's answers -/

/-- R50, R54: every instruction the decoder reads has operands that fit their digits. -/
theorem wf_of_decode_known {w : Int} {i : Instr} (h : decode w = .known i) : i.wf = true := by
  have hop : operandOf w < 10000 := Nat.mod_lt _ (by decide)
  have hfour : fourDigits (operandOf w) = true := (Laws.fourDigits_iff _).mpr (by omega)
  have hstart : twoDigits (startPageOf (operandOf w)) = true :=
    (Laws.twoDigits_iff _).mpr (Nat.div_lt_of_lt_mul hop)
  have hend : twoDigits (endPageOf (operandOf w)) = true := (Laws.twoDigits_iff _).mpr (Nat.mod_lt _ (by decide))
  unfold decode decodeFields at h
  split at h <;> cases h
  case h_23 => exact (Bool.and_eq_true _ _).mpr ⟨hstart, hend⟩
  all_goals exact hfour

/-- R56, R74: an unknown opcode is named by its value. -/
theorem eq_opcodeOf_of_decode_unknown {w : Int} {c : Nat} (h : decode w = .unknown c) : c = opcodeOf w := by
  unfold decode decodeFields at h
  split at h <;> cases h
  rfl

/-! ### Memory and its cells -/

/-- What holds of every entry and of the one written holds of every entry after the write. -/
theorem Memory.forall_mem_write {q : Nat × Int → Prop} {m : Memory} {a : Nat} {v : Int} (h : ∀ c ∈ m, q c)
    (hv : q (a, v)) : ∀ c ∈ m.write a v, q c := by
  intro c hc
  obtain hold | rfl := Memory.mem_write hc
  · exact h c hold
  · exact hv

/-- R33: an instruction leaves memory as it is, or writes one location of the array, with an input word or with `acc`. -/
theorem exec_mem {i : Instr} {s t : State} (h : exec i s = .next t) :
    t.mem = s.mem ∨ ∃ a v, a < s.cfg.memSize ∧ (inW v ∨ v = s.acc) ∧ t.mem = s.mem.write a v := by
  cases exec_cases h with
  | completed hc =>
    cases hc with
    | read hin _ hv => exact .inr ⟨_, _, (s.inMemory_absolute _).mp hin, .inl hv, rfl⟩
    | store hin => exact .inr ⟨_, _, (s.inMemory_absolute _).mp hin, .inr rfl, rfl⟩
    | storeidx hin => exact .inr ⟨s.xr.toNat, _, by have := hin.1; have := hin.2; omega, .inr rfl, rfl⟩
    | _ => exact .inl rfl
  | _ => exact .inl rfl

/-! ### The range of the stored values -/

/-- A range of values that every instruction stays in: it has every word, and with a value every smaller one. -/
structure WordRange (p : Int → Prop) : Prop where
  word    : ∀ {v}, inW v → p v
  smaller : ∀ {u v : Int}, p u → v.natAbs ≤ u.natAbs → p v

theorem wordRange_inW : WordRange inW := ⟨id, inW_mono⟩

theorem wordRange_holds {c : Config} (h : c.wf = true) : WordRange (c.holds · = true) :=
  ⟨Config.holds_of_inW h, Config.holds_mono⟩

/-- Every storage element has its value in a range: `acc` unless the run has ended by an overflow (R110). -/
structure State.ValuesIn (p : Int → Prop) (s : State) : Prop where
  cells : ∀ c ∈ s.mem, p c.2
  acc   : s.overflowed = false → p s.acc
  xr    : p s.xr
  ir    : p s.ir

theorem State.Inv.valuesIn {s : State} (h : s.Inv) : s.ValuesIn (s.cfg.holds · = true) :=
  ⟨h.cellsHeld, h.accHeld, h.xrHeld, h.irHeld⟩

theorem State.WordInv.valuesIn {s : State} (h : s.WordInv) : s.ValuesIn inW := ⟨h.cells, h.acc, h.xr, h.ir⟩

theorem State.overflowed_of_running {s : State} (h : s.status = .running) : s.overflowed = false := by
  simp [State.overflowed, h]

section Values

variable {p : Int → Prop} {s t : State}

theorem State.ValuesIn.raise (h : s.ValuesIn p) (hrun : s.status = .running) (k : FaultKind) (v : Int) :
    (s.raise k v).ValuesIn p :=
  ⟨h.cells, fun _ => h.acc (overflowed_of_running hrun), h.xr, h.ir⟩

theorem State.ValuesIn.read (h : s.ValuesIn p) (hp : WordRange p) (a : Nat) : p (s.mem.read a) :=
  Memory.read_of_cells (hp.word inW_zero) h.cells a

theorem State.ValuesIn.fetched (h : s.ValuesIn p) (hp : WordRange p) (a : Nat) :
    (s.fetched (s.mem.read a)).ValuesIn p :=
  ⟨h.cells, h.acc, h.xr, h.read hp a⟩

/-- R22, R110: what an instruction leaves in `acc` is in range unless it overflowed. -/
theorem State.ValuesIn.exec_acc {i : Instr} (hs : s.ValuesIn p) (hp : WordRange p) (hrun : s.status = .running)
    (h : exec i s = .next t) (ht : t.overflowed = false) : p t.acc := by
  have hacc : p s.acc := hs.acc (overflowed_of_running hrun)
  cases exec_cases h with
  | overflow => cases ht
  | completed hc =>
    cases hc with
    | load | loadidx => exact hs.read hp _
    | loadim => exact hp.smaller hs.ir (natAbs_trem_le _ _)
    | checked _ hv => exact hp.word ((not_overflows_iff _).mp hv)
    | divided => exact hp.smaller hacc (natAbs_tdiv_le _ _)
    | swap => exact hs.xr
    | _ => exact hacc
  | _ => exact hacc

theorem exec_keeps_valuesIn {i : Instr} (hp : WordRange p) (hs : s.ValuesIn p) (hrun : s.status = .running)
    (h : exec i s = .next t) (hxr : p t.xr) : t.ValuesIn p where
  cells := by
    obtain e | ⟨a, v, -, hv, e⟩ := exec_mem h <;> rw [e]
    · exact hs.cells
    · refine Memory.forall_mem_write hs.cells ?_
      obtain hword | rfl := hv
      · exact hp.word hword
      · exact hs.acc (State.overflowed_of_running hrun)
  acc := hs.exec_acc hp hrun h
  xr := hxr
  ir := exec_ir h ▸ hs.ir

end Values

/-! ### The steps -/

/-- A step waits, takes the fetch's fault, takes the decode's fault, or executes the decoded instruction (R70 to R79). -/
theorem step_next_cases {s t : State} (h : step s = .next t) :
    t = s ∨ s.status = .running ∧
      (¬ s.inMemory s.ic ∧ t = s.raise .outOfRangeAccess s.ic ∨
        decode (s.mem.read s.ic) = .unknown (opcodeOf (s.mem.read s.ic)) ∧
          t = (s.fetched (s.mem.read s.ic)).raise .unknownOpcode (opcodeOf (s.mem.read s.ic)) ∨
        ∃ i, decode (s.mem.read s.ic) = .known i ∧ exec i (s.fetched (s.mem.read s.ic)) = .next t) := by
  obtain ⟨-, e⟩ | ⟨hrun, hc⟩ := step_cases h
  · exact .inl e
  · obtain ⟨hout, e⟩ | ⟨code, -, hd, e⟩ | ⟨_, -, -, -, e⟩ | ⟨i, -, hd, -, hex⟩ := State.cycle_cases hc
    · exact .inr ⟨hrun, .inl ⟨hout, e⟩⟩
    · obtain rfl := eq_opcodeOf_of_decode_unknown hd
      exact .inr ⟨hrun, .inr (.inl ⟨hd, e⟩)⟩
    · exact .inl e
    · exact .inr ⟨hrun, .inr (.inr ⟨i, hd, hex⟩)⟩

/-- R22 for any range of values: only `xr`, which INC and DEC do not check, has to be assumed of the next state. -/
theorem step_keeps_valuesIn {p : Int → Prop} {s t : State} (hp : WordRange p) (hs : s.ValuesIn p)
    (h : step s = .next t) (hxr : p t.xr) : t.ValuesIn p := by
  obtain rfl | ⟨hrun, ⟨-, rfl⟩ | ⟨-, rfl⟩ | ⟨i, -, hex⟩⟩ := step_next_cases h
  · exact hs
  · exact hs.raise hrun _ _
  · exact (hs.fetched hp _).raise hrun _ _
  · exact exec_keeps_valuesIn hp (hs.fetched hp _) hrun hex hxr

theorem step_input_subset {s t : State} (h : step s = .next t) : t.input ⊆ s.input := by
  obtain rfl | ⟨-, ⟨-, rfl⟩ | ⟨-, rfl⟩ | ⟨i, -, hex⟩⟩ := step_next_cases h
  · exact List.Subset.refl _
  · exact List.Subset.refl _
  · exact List.Subset.refl _
  · simpa using exec_input_subset hex

/-- Settles O48: the words are a range that every step stays in while `xr` does. -/
theorem wordsStayWordsWhileXrDoes : Obligations.WordsStayWordsWhileXrDoes := by
  intro s t hs h hxr
  obtain ⟨hcells, hacc, hxr', hir⟩ := step_keeps_valuesIn wordRange_inW hs.valuesIn h hxr
  exact ⟨hcells, hacc, hxr', hir, fun v hv => hs.inputs v (step_input_subset h hv)⟩

/-! ### The invariant -/

section Invariant

variable {i : Instr} {s t : State}

theorem State.statusOk_of_running (h : s.status = .running) : s.StatusOk := by
  simp [State.StatusOk, h]

theorem State.Inv.raise (h : s.Inv) (hrun : s.status = .running) {k : FaultKind} {v : Int}
    (hok : (s.raise k v).StatusOk) : (s.raise k v).Inv :=
  have ⟨hcells, hacc, hxr, hir⟩ := h.valuesIn.raise hrun k v
  ⟨h.config, h.canonical, h.bounded, h.icRange, hcells, hacc, hxr, hir, hok⟩

theorem State.Inv.fetched (h : s.Inv) (hrun : s.status = .running) (a : Nat) : (s.fetched (s.mem.read a)).Inv :=
  have ⟨hcells, hacc, hxr, hir⟩ := h.valuesIn.fetched (wordRange_holds h.config) a
  ⟨h.config, h.canonical, h.bounded, h.icRange, hcells, hacc, hxr, hir, statusOk_of_running hrun⟩

/-- R133: INC and DEC are refused at the limit, so `xr` stays within `CAP`. -/
theorem State.Inv.exec_xr_held (hs : s.Inv) (hrun : s.status = .running) (h : exec i s = .next t) :
    s.cfg.holds t.xr = true := by
  cases exec_cases h with
  | completed hc =>
    cases hc with
    | loadx => exact hs.valuesIn.read (wordRange_holds hs.config) _
    | inc hcap => exact Config.holds_succ hs.xrHeld hcap
    | dec hcap => exact Config.holds_pred hs.xrHeld hcap
    | swap => exact hs.accHeld (overflowed_of_running hrun)
    | _ => exact hs.xrHeld
  | _ => exact hs.xrHeld

/-- R14, R23: an advance stays in page 0, and a branch goes to four operand digits. -/
theorem icAfter_le (hwf : i.wf = true) (hic : s.ic ≤ operandMax) : icAfter s i ≤ operandMax := by
  have hnext : nextIc s.ic ≤ operandMax := by
    have := nextIc_lt s.ic
    simp only [pageSize, operandMax] at *
    omega
  cases i with
  | halt => exact hic
  | branch d => exact of_decide_eq_true hwf
  | branchneg d | branchzero d =>
    have hd : d ≤ operandMax := of_decide_eq_true hwf
    simp only [icAfter]
    split_ifs <;> omega
  | _ => exact hnext

theorem exec_ic_le (hwf : i.wf = true) (hic : s.ic ≤ operandMax) (h : exec i s = .next t) : t.ic ≤ operandMax := by
  obtain ⟨-, rfl⟩ | hc | ⟨_, _, -, -, e⟩ := exec_waits_completes_or_faults h
  · exact hic
  · exact completed_ic hc ▸ icAfter_le hwf hic
  · exact e ▸ hic

/-- R150, R182: the status an instruction leaves fits the state it leaves. -/
theorem exec_statusOk (hrun : s.status = .running) (hdec : decode s.ir = .known i) (h : exec i s = .next t) :
    t.StatusOk := by
  cases exec_cases h with
  | waits => exact State.statusOk_of_running hrun
  | outside _ hout => exact ⟨rfl, hout⟩
  | zeroDivisor => exact ⟨rfl, rfl⟩
  | overflow _ hv => exact ⟨rfl, rfl, hv⟩
  | completed hc =>
    cases hc with
    | halt => exact hdec
    | _ => exact State.statusOk_of_running hrun

theorem exec_keeps_inv (hs : s.Inv) (hrun : s.status = .running) (hdec : decode s.ir = .known i)
    (h : exec i s = .next t) : t.Inv := by
  have hcfg := exec_cfg h
  have hvals : t.ValuesIn (t.cfg.holds · = true) := hcfg ▸
    exec_keeps_valuesIn (wordRange_holds hs.config) hs.valuesIn hrun h (hs.exec_xr_held hrun h)
  have hmem : t.mem.wf ∧ ∀ c ∈ t.mem, c.1 < t.cfg.memSize := by
    obtain e | ⟨a, v, ha, -, e⟩ := exec_mem h <;> rw [e, hcfg]
    · exact ⟨hs.canonical, hs.bounded⟩
    · exact ⟨Memory.write_wf hs.canonical a v, Memory.forall_mem_write hs.bounded ha⟩
  exact
    { config := hcfg ▸ hs.config
      canonical := hmem.1
      bounded := hmem.2
      icRange := exec_ic_le (wf_of_decode_known hdec) hs.icRange h
      cellsHeld := hvals.cells
      accHeld := hvals.acc
      xrHeld := hvals.xr
      irHeld := hvals.ir
      statusOk := exec_statusOk hrun hdec h }

end Invariant

/-- Settles O46: the fetch, the two faults of fetch and decode, and every instruction keep the invariant. -/
theorem everyStepKeepsTheInvariant : Obligations.EveryStepKeepsTheInvariant := by
  intro s t hs h
  obtain rfl | ⟨hrun, ⟨hout, rfl⟩ | ⟨hd, rfl⟩ | ⟨i, hd, hex⟩⟩ := step_next_cases h
  · exact hs
  · exact hs.raise hrun ⟨rfl, hout⟩
  · exact (hs.fetched hrun _).raise hrun ⟨rfl, hd, rfl⟩
  · exact exec_keeps_inv (hs.fetched hrun _) hrun hd hex

/-! ### Reset -/

/-- R24: with every register zero and no cell listed, only the parameters are left to check. -/
theorem resetWith_inv {c : Config} (h : c.wf = true) : (State.resetWith c).Inv where
  config := h
  canonical := ⟨List.Pairwise.nil, by simp [State.resetWith]⟩
  bounded := by simp [State.resetWith]
  icRange := Nat.zero_le _
  cellsHeld := by simp [State.resetWith]
  accHeld := fun _ => Config.holds_zero c
  xrHeld := Config.holds_zero c
  irHeld := Config.holds_zero c
  statusOk := ⟨rfl, rfl, rfl, rfl⟩

/-- Settles O47. -/
theorem resetStateMeetsTheInvariant : Obligations.ResetStateMeetsTheInvariant :=
  ⟨fun _ => resetWith_inv, resetWith_inv (by decide)⟩

/-- Settles O53: no cell is listed after reset, and an idle engine starts. -/
theorem resetZeroesEverything : Obligations.ResetZeroesEverything :=
  fun _ => ⟨rfl, rfl, rfl, rfl, Memory.read_nil, _, if_pos rfl, rfl, rfl, rfl, rfl, rfl, Memory.read_nil⟩

end Sys2Proof.Machine

/-! PROOFS. Memory: what an instruction stores and where (R32, R33), and the word the next fetch sees (R42). -/

namespace Sys2Proof.Machine

/-! ### The location an instruction writes -/

/-- R33: an instruction leaves memory as it is, or writes its store address and no other location. -/
theorem exec_mem_at_storeAddress {i : Instr} {s t : State} (h : exec i s = .next t) :
    t.mem = s.mem ∨ ∃ (a : Nat) (v : Int), storeAddress s i = some (a : Int) ∧ t.mem = s.mem.write a v := by
  cases exec_cases h with
  | completed hc =>
    cases hc with
    | read | store => exact .inr ⟨_, _, rfl, rfl⟩
    | storeidx hin => exact .inr ⟨s.xr.toNat, _, congrArg some (Int.toNat_of_nonneg hin.1).symm, rfl⟩
    | _ => exact .inl rfl
  | _ => exact .inl rfl

/-- Settles O41: memory is as before, or differs by one write at the store address. -/
theorem onlyTheStoredLocationChanges : Obligations.OnlyTheStoredLocationChanges := by
  intro i s t h
  obtain e | ⟨a, v, ha, e⟩ := exec_mem_at_storeAddress h <;> rw [e]
  · exact ⟨fun _ => ⟨rfl, fun _ => rfl⟩, fun _ _ _ _ => rfl⟩
  · rw [ha]
    refine ⟨nofun, ?_⟩
    rintro _ ⟨⟩ b hb
    exact Memory.read_write_other _ _ (Int.ofNat_inj.not.mp hb)

/-! ### The step of a running engine, by the word it fetches -/

/-- R71: a location of memory is fetched without a fault. -/
theorem State.memRead_natCast {s : State} {a : Nat} (h : a < s.cfg.memSize) (k : Int → Result) :
    s.memRead a k = k (s.mem.read a) := readAbsolute_inside h k

section Fetch

variable {s : State} {w : Int} (hrun : s.status = .running) (hic : s.ic < s.cfg.memSize) (hw : s.mem.read s.ic = w)
include hrun hic hw

/-- R74, R77: the decoded instruction is executed. -/
theorem step_of_decode_known {i : Instr} (hd : decode w = .known i) (hwait : s.waits i = false) :
    step s = exec i (s.fetched w) := by
  subst hw
  simp [step, hrun, State.cycle, State.memRead_natCast hic, hd, hwait]

/-- R79: a READ that has to wait leaves the state as it is (log entry 4). -/
theorem step_of_decode_waits {i : Instr} (hd : decode w = .known i) (hwait : s.waits i = true) : step s = .next s := by
  subst hw
  simp [step, hrun, State.cycle, State.memRead_natCast hic, hd, hwait]

/-- R74: an opcode that is not recognised ends the run. -/
theorem step_of_decode_unknown {c : Nat} (hd : decode w = .unknown c) :
    step s = .next ((s.fetched w).raise .unknownOpcode c) := by
  subst hw
  simp [step, hrun, State.cycle, State.memRead_natCast hic, hd]

end Fetch

/-! ### Stores to a location of memory -/

theorem State.memWrite_absolute {s : State} {a : Nat} (h : a < s.cfg.memSize) (v : Int) (k : State → Result) :
    s.memWrite (absolute a) v k = k (s.setMem a v) := memWrite_inside ((s.inMemory_absolute a).mpr h) v k

section Store

variable {s : State} {a : Nat} (ha : a < s.cfg.memSize)
include ha

theorem exec_store_inside : exec (.store a) s = .next (s.setMem a s.acc).advance := by
  rw [exec_store, State.memWrite_absolute ha]

theorem exec_storeidx_inside (d : Nat) (hxr : s.xr = a) : exec (.storeidx d) s = .next (s.setMem a s.acc).advance := by
  rw [exec_storeidx, State.indexed, hxr]
  exact State.memWrite_absolute ha s.acc fun t => .next t.advance

theorem exec_read_inside {v : Int} {rest : List Int} (hin : s.input = v :: rest) (hv : inW v) :
    exec (.read a) s =
      .next ((((s.setInput rest).emit .inputRequest).emit (.input v)).setMem a v).advance := by
  rw [exec_read, execRead, State.readAbsolute_inside ha]
  simp only [hin, if_pos hv]
  rw [State.memWrite_absolute (by exact ha)]

/-- R42: a step of a STORE, STOREIDX or READ that puts `v` in location `a` changes nothing else the next cycle depends
on but `ic`, which advances. -/
theorem step_stores {v : Int} (hrun : s.status = .running) (hic : s.ic < s.cfg.memSize)
    (h : (decode (s.mem.read s.ic) = .known (.store a) ∧ v = s.acc) ∨
      (∃ d, decode (s.mem.read s.ic) = .known (.storeidx d) ∧ s.xr = a ∧ v = s.acc) ∨
      (decode (s.mem.read s.ic) = .known (.read a) ∧ inW v ∧ ∃ rest, s.input = v :: rest)) :
    ∃ t, step s = .next t ∧ t.status = .running ∧ t.cfg = s.cfg ∧ t.ic = nextIc s.ic ∧ t.acc = s.acc ∧ t.xr = s.xr ∧
      t.mem = s.mem.write a v := by
  obtain ⟨hd, rfl⟩ | ⟨d, hd, hxr, rfl⟩ | ⟨hd, hv, rest, hin⟩ := h
  · have hstep := step_of_decode_known hrun hic rfl hd rfl
    exact ⟨_, hstep.trans (exec_store_inside ha), hrun, rfl, rfl, rfl, rfl, rfl⟩
  · have hstep := step_of_decode_known hrun hic rfl hd rfl
    exact ⟨_, hstep.trans (exec_storeidx_inside (s := s.fetched _) ha d hxr), hrun, rfl, rfl, rfl, rfl, rfl⟩
  · have hwait : s.waits (.read a) = false :=
      Bool.eq_false_iff.mpr fun hb => by simpa [hin] using (s.blocked_iff a).mp hb
    have hstep := step_of_decode_known hrun hic rfl hd hwait
    exact ⟨_, hstep.trans (exec_read_inside (s := s.fetched _) ha hin hv), hrun, rfl, rfl, rfl, rfl, rfl⟩

end Store

/-- Settles O54: the store leaves `ic` at the location it wrote, so the next step fetches the stored word. -/
theorem storedWordIsSeenByTheNextFetch : Obligations.StoredWordIsSeenByTheNextFetch := by
  intro s a v hwf hrun hic ha hnext hstore
  obtain ⟨t, hstep, htrun, hcfg, htic, hacc, hxr, hmem⟩ := step_stores ha hrun hic hstore
  have hta : t.ic = a := htic.trans hnext
  have hread : t.mem.read a = v := by rw [hmem, Memory.read_write_same hwf]
  have hin : t.ic < t.cfg.memSize := by rwa [hta, hcfg]
  have hfetch : t.mem.read t.ic = v := by rw [hta, hread]
  exact ⟨t, hstep, hta, hacc, hxr, hread, fun _ => step_of_decode_known htrun hin hfetch,
    fun _ => step_of_decode_waits htrun hin hfetch, fun _ => step_of_decode_unknown htrun hin hfetch⟩

end Sys2Proof.Machine

/-! PROOFS. The encoding of instructions (R50 to R58), and what an instruction does not see of its word (R53, R54). -/

namespace Sys2Proof.Machine

/-! ### Packing and splitting -/

theorem natAbs_pack (s : Sign) (o p : Nat) : (pack s o p).natAbs = o * opcDiv + p := by
  cases s <;> simp [pack, signFactor, opcDiv] <;> omega

theorem opcodeOf_pack (s : Sign) (o : Nat) {p : Nat} (hp : p ≤ operandMax) : opcodeOf (pack s o p) = o := by
  unfold operandMax at hp
  rw [opcodeOf, natAbs_pack, opcDiv]
  omega

theorem operandOf_pack (s : Sign) (o : Nat) {p : Nat} (hp : p ≤ operandMax) : operandOf (pack s o p) = p := by
  unfold operandMax at hp
  rw [operandOf, natAbs_pack, opcDiv]
  omega

/-- R51: opcode and operand are the quotient and the remainder of the magnitude. -/
theorem opcodeOf_mul_add_operandOf (w : Int) : opcodeOf w * opcDiv + operandOf w = w.natAbs := Nat.div_add_mod' _ _

/-- R52, R53: packing a word's fields in the word's own sign gives the word. -/
theorem pack_opcodeOf_operandOf (w : Int) : pack (if w < 0 then .minus else .plus) (opcodeOf w) (operandOf w) = w := by
  rw [pack, opcodeOf_mul_add_operandOf]
  split <;> simp only [signFactor] <;> omega

/-- Settles O1: the two fields are quotient and remainder by 10000, which together determine the magnitude. -/
theorem packSplitsBack : Obligations.PackSplitsBack := by
  refine ⟨fun s o p _ hp => ⟨?_, opcodeOf_pack s o hp, operandOf_pack s o hp⟩, fun v w => ⟨?_, fun h => ?_⟩⟩
  · cases s <;> simp [pack, signFactor, opcDiv]
  · rintro ⟨ho, hp⟩
    rw [← opcodeOf_mul_add_operandOf v, ho, hp, opcodeOf_mul_add_operandOf]
  · simp only [opcodeOf, operandOf, h, and_self]

/-! ### The opcode map -/

/-- R50, R54: the operand digits of a well-formed instruction are four. -/
theorem operand_le_of_wf {i : Instr} (h : i.wf = true) : i.operand ≤ operandMax := by
  cases i with
  | halt p q =>
    obtain ⟨hp, hq⟩ := (Bool.and_eq_true _ _).mp h
    have hp := (Laws.twoDigits_iff p).mp hp
    have hq := (Laws.twoDigits_iff q).mp hq
    simp only [Instr.operand, operandMax, pageSize]
    omega
  | _ => exact of_decide_eq_true h

/-- R55: the opcode map answers an instruction at the instruction's own fields. -/
theorem decodeFields_opcode_operand {i : Instr} (h : i.wf = true) : decodeFields i.opcode i.operand = .known i := by
  cases i with
  | halt p q =>
    obtain ⟨-, hq⟩ := (Bool.and_eq_true _ _).mp h
    have hq := (Laws.twoDigits_iff q).mp hq
    have hp : startPageOf (p * pageSize + q) = p := by simp only [startPageOf, pageSize]; omega
    have hq : endPageOf (p * pageSize + q) = q := by simp only [endPageOf, pageSize]; omega
    simp only [Instr.opcode, Instr.operand, decodeFields, hp, hq]
  | _ => rfl

/-- Conversely, an instruction the map answers has the fields it was read from. -/
theorem opcode_operand_of_decodeFields {o p : Nat} {i : Instr} (h : decodeFields o p = .known i) :
    i.opcode = o ∧ i.operand = p := by
  unfold decodeFields at h
  split at h <;> cases h
  case h_23 => exact ⟨rfl, Nat.div_add_mod' p pageSize⟩
  all_goals exact ⟨rfl, rfl⟩

theorem opcode_of_decode {w : Int} {i : Instr} (h : decode w = .known i) : i.opcode = opcodeOf w :=
  (opcode_operand_of_decodeFields h).1

theorem operand_of_decode {w : Int} {i : Instr} (h : decode w = .known i) : i.operand = operandOf w :=
  (opcode_operand_of_decodeFields h).2

/-- R55: the map has an instruction for each of the 23 opcodes, whatever the operand. -/
theorem decode_known_of_recognised {w : Int} (h : opcodeOf w ∈ recognisedOpcodes) : ∃ i, decode w = .known i := by
  unfold decode
  generalize opcodeOf w = o at h
  fin_cases h <;> exact ⟨_, rfl⟩

/-- R56, R58: every other opcode falls to the catch-all. -/
theorem decode_unknown_of_not_recognised {w : Int} (h : opcodeOf w ∉ recognisedOpcodes) :
    decode w = .unknown (opcodeOf w) := by
  cases hd : decode w with
  | known i =>
    have hmem : i.opcode ∈ recognisedOpcodes := by cases i <;> simp [Instr.opcode, recognisedOpcodes]
    exact absurd (opcode_of_decode hd ▸ hmem) h
  | unknown c => rw [eq_opcodeOf_of_decode_unknown hd]

/-- Settles O2: the word splits into the instruction's fields, at which the opcode map answers the instruction. -/
theorem decodeOfEncodeGivesInstruction : Obligations.DecodeOfEncodeGivesInstruction := by
  intro s i h
  have hp := operand_le_of_wf h
  calc decode (encode s i)
      = decodeFields i.opcode i.operand := by rw [decode, encode, opcodeOf_pack s _ hp, operandOf_pack s _ hp]
    _ = .known i := decodeFields_opcode_operand h

/-- Settles O3: the instruction has the word's fields, which packed in the word's sign are the word. -/
theorem encodeOfDecodeGivesWord : Obligations.EncodeOfDecodeGivesWord := by
  intro w i h
  refine ⟨wf_of_decode_known h, ?_⟩
  rw [encode, opcode_of_decode h, operand_of_decode h, pack_opcodeOf_operandOf]

/-- Settles O4: the obligation's list is `recognisedOpcodes`. -/
theorem recognisedOpcodesAreThe23 : Obligations.RecognisedOpcodesAreThe23 := by
  refine fun w => ⟨fun h => ?_, fun h => decode_unknown_of_not_recognised h⟩
  obtain ⟨i, hd⟩ := decode_known_of_recognised (w := w) h
  exact ⟨i, hd, opcode_of_decode hd⟩

/-- Settles O6: each word is evaluated by the decoder. -/
theorem writtenOutWordsDecode : Obligations.WrittenOutWordsDecode := by
  unfold Obligations.WrittenOutWordsDecode
  decide

/-- Settles O10: outside the 23 opcodes the decoder names the opcode, and the cycle faults on it. -/
theorem stepFaultsOnUnknownOpcode : Obligations.StepFaultsOnUnknownOpcode :=
  fun _ hrun hic hop => step_of_decode_unknown hrun hic rfl (decode_unknown_of_not_recognised hop)

/-! ### What an instruction does not see of its word: the sign (R53), the digits of class N (R54) -/

theorem decode_neg (w : Int) : decode (-w) = decode w := by
  simp only [decode, opcodeOf, operandOf, Int.natAbs_neg]

theorem trem_neg_left (a b : Int) : trem (-a) b = -trem a b := by
  simp only [trem_eq_int_tmod, Int.neg_tmod]

/-- The case of a dividend and a divisor that are not negative. -/
theorem trem_natCast (m n : Nat) : trem m n = ((m % n : Nat) : Int) := by
  rw [trem_eq_int_tmod, Int.natCast_mod, Int.tmod_eq_emod_of_nonneg (Int.natCast_nonneg m)]

/-- 00_scope.md section 6.3: the remainder has the dividend's sign. -/
theorem trem_natCast_right (a : Int) (n : Nat) : trem a n = a.sign * ((a.natAbs % n : Nat) : Int) := by
  obtain ⟨m, rfl | rfl⟩ := Int.eq_nat_or_neg a
  · rw [trem_natCast, Int.natAbs_natCast]
    cases m <;> simp
  · rw [trem_neg_left, trem_natCast, Int.natAbs_neg, Int.natAbs_natCast, Int.sign_neg]
    cases m <;> simp

/-- READ stores the offered word without looking at `ir`. -/
theorem execRead_withIr (a : Nat) (s : State) (v : Int) :
    execRead a { s with ir := v } = Result.withIr v (execRead a s) := by
  rw [execRead, execRead, State.readAbsolute, State.readAbsolute]
  refine s.memRead_withIr v _ fun _ => ?_
  cases hin : s.input with
  | nil => simp only [Result.withIr, hin]
  | cons u rest =>
    by_cases hu : inW u
    · simp only [if_pos hu]
      exact State.memWrite_withIr (((s.setInput rest).emit .inputRequest).emit (.input u)) v _ _ fun _ => rfl
    · simp only [if_neg hu]
      rfl

/-- R53: no instruction but LOADIM looks at `ir`. -/
theorem exec_withIr {i : Instr} (hi : ∀ d, i ≠ .loadim d) (s : State) (v : Int) :
    exec i { s with ir := v } = Result.withIr v (exec i s) := by
  cases i with
  | loadim d => exact absurd rfl (hi d)
  | read a => exact execRead_withIr a s v
  | write | load | loadx | loadidx =>
    simp only [exec_write, exec_load, exec_loadx, exec_loadidx]
    exact s.memRead_withIr v _ fun _ => rfl
  | store | storeidx =>
    simp only [exec_store, exec_storeidx]
    exact s.memWrite_withIr v _ _ fun _ => rfl
  | add | addx | subtract | subtractx | multiply | multiplyx =>
    exact s.memRead_withIr v _ fun _ => s.finishChecked_withIr v _
  | divide | dividex => exact s.memRead_withIr v _ fun _ => s.finishDivide_withIr v _
  | branch | swap | halt => rfl
  | inc | dec | branchneg | branchzero =>
    simp only [exec_inc, exec_dec, exec_branchneg, execBranchneg, exec_branchzero, Result.withIr_ite]
    rfl

/-- Settles O5: the decoder reads magnitudes, no instruction but LOADIM reads `ir`, and LOADIM's remainder changes sign
with it. -/
theorem signOfWordMattersToLoadimOnly : Obligations.SignOfWordMattersToLoadimOnly := by
  refine ⟨decode_neg, fun i s hi => ?_, fun d s => ?_⟩
  · rw [exec_withIr hi]
    cases exec i s <;> rfl
  · have hacc : trem (-s.ir) loadimMod = -(s.ir.sign * ((s.ir.natAbs % 1000000 : Nat) : Int)) := by
      rw [trem_neg_left, ← trem_natCast_right]
      rfl
    rw [← hacc]
    rfl

/-- R54, D10: the class-N instructions of one opcode have one meaning, whatever their digits. -/
theorem exec_eq_of_classN {o p q : Nat} {i j : Instr} (ho : o ∈ [23, 26, 31, 33, 35, 37, 38, 39, 43])
    (hi : decodeFields o p = .known i) (hj : decodeFields o q = .known j) (s : State) : exec i s = exec j s := by
  fin_cases ho <;> cases hi <;> cases hj <;> rfl

/-- Settles O40: both integers decode by the same arm of the opcode map. -/
theorem operandDigitsOfClassNAreIgnored : Obligations.OperandDigitsOfClassNAreIgnored := by
  intro v w hvw hop
  change opcodeOf v = opcodeOf w at hvw
  change opcodeOf w ∈ _ at hop
  have hsub : ∀ o ∈ [23, 26, 31, 33, 35, 37, 38, 39, 43], o ∈ recognisedOpcodes := by decide
  have hrec := hsub _ hop
  obtain ⟨i, hi⟩ := decode_known_of_recognised (hvw ▸ hrec)
  obtain ⟨j, hj⟩ := decode_known_of_recognised hrec
  have hij : i.opcode = j.opcode := by rw [opcode_of_decode hi, opcode_of_decode hj, hvw]
  have hi' : decodeFields (opcodeOf w) (operandOf v) = .known i := hvw ▸ hi
  exact ⟨i, j, hi, hj, operand_of_decode hi, operand_of_decode hj, hij, exec_eq_of_classN hop hi' hj⟩

end Sys2Proof.Machine

/-! PROOFS. The BCD view of the opcode table (R62): the word's six decimal digits, read in base 16 below the sign. -/

namespace Sys2Proof.Machine

/-! ### Numbers made of digits -/

section Digits

variable {b n : Nat} {d : Nat → Nat} (h : ∀ k < n, d k < b)
include h

theorem sum_digits_lt : ∑ k ∈ Finset.range n, d k * b ^ k < b ^ n := by
  induction n with
  | zero => simp
  | succ n ih =>
    have hlow := ih fun k hk => h k (Nat.lt_succ_of_lt hk)
    have hhigh : (d n + 1) * b ^ n ≤ b * b ^ n := Nat.mul_le_mul_right _ (h n n.lt_succ_self)
    rw [Finset.sum_range_succ, Nat.pow_succ']
    linarith

/-- What stands above `n` digits does not change them. -/
theorem sum_digits_div_mod {k : Nat} (hk : k < n) (c : Nat) :
    (c * b ^ n + ∑ j ∈ Finset.range n, d j * b ^ j) / b ^ k % b = d k := by
  induction n generalizing c with
  | zero => omega
  | succ n ih =>
    have hlow : ∀ k < n, d k < b := fun k hk => h k (Nat.lt_succ_of_lt hk)
    have hd := h n n.lt_succ_self
    have hsplit : c * b ^ (n + 1) + ∑ j ∈ Finset.range (n + 1), d j * b ^ j =
        (c * b + d n) * b ^ n + ∑ j ∈ Finset.range n, d j * b ^ j := by
      rw [Finset.sum_range_succ]
      ring
    rw [hsplit]
    obtain hlt | rfl := Nat.lt_succ_iff_lt_or_eq.mp hk
    · exact ih hlow hlt _
    · have hpos : 0 < b ^ k := Nat.pow_pos (by omega)
      rw [Nat.mul_comm, Nat.mul_add_div hpos, Nat.div_eq_of_lt (sum_digits_lt hlow), Nat.add_zero,
        Nat.mul_add_mod_self_right, Nat.mod_eq_of_lt hd]

end Digits

/-- The `n` low digits of `x` in base `b` make `x` modulo `b ^ n`. -/
theorem sum_digits_of_nat (b x n : Nat) : ∑ k ∈ Finset.range n, x / b ^ k % b * b ^ k = x % b ^ n := by
  induction n with
  | zero => simp [Nat.mod_one]
  | succ n ih => rw [Finset.sum_range_succ, ih, Nat.mod_pow_succ, Nat.mul_comm]

/-! ### The view -/

theorem decimalDigit_lt_sixteen (m : Nat) : m % 10 < 16 := (Nat.mod_lt m (by decide)).trans (by decide)

/-- R62: the decimal digits of the magnitude in base 16, below the sign. -/
theorem bcdOfWord_eq_sum (w : Int) : bcdOfWord w =
    (if w < 0 then 1 else 0) * 16 ^ 6 + ∑ k ∈ Finset.range 6, w.natAbs / 10 ^ k % 10 * 16 ^ k := by
  simp only [Finset.sum_range_succ, Finset.sum_range_zero, bcdOfWord]
  split <;> norm_num <;> omega

/-- R62: the magnitude a pattern shows, its six digits read in base 10. -/
def bcdMagnitude (n : Nat) : Nat := ∑ k ∈ Finset.range 6, bcdDigit n k * 10 ^ k

/-- R62, log entry 13: a pattern shows a word when its six digits are decimal and only the sign stands above them. -/
theorem wordOfBcd_eq_some_iff (n : Nat) (w : Int) : wordOfBcd n = some w ↔
    (n < 2 ^ 25 ∧ n ≠ 2 ^ 24 ∧ ∀ k < 6, bcdDigit n k < 10) ∧
      (if n / 2 ^ 24 = 1 then -(bcdMagnitude n : Int) else (bcdMagnitude n : Int)) = w := by
  have hsum : bcdDigit n 5 * 100000 + bcdDigit n 4 * 10000 + bcdDigit n 3 * 1000 + bcdDigit n 2 * 100 +
      bcdDigit n 1 * 10 + bcdDigit n 0 = bcdMagnitude n := by
    simp only [bcdMagnitude, Finset.sum_range_succ, Finset.sum_range_zero]
    omega
  have hdigits : (∀ k < 6, bcdDigit n k < 10) ↔ bcdDigit n 0 ≤ 9 ∧ bcdDigit n 1 ≤ 9 ∧ bcdDigit n 2 ≤ 9 ∧
      bcdDigit n 3 ≤ 9 ∧ bcdDigit n 4 ≤ 9 ∧ bcdDigit n 5 ≤ 9 := by
    iterate 6 rw [Nat.forall_lt_succ_right]
    simp only [Nat.not_lt_zero, IsEmpty.forall_iff, implies_true, true_and]
    omega
  simp only [wordOfBcd, hsum, hdigits, Option.ite_none_right_eq_some, Option.some_inj]

theorem bcdDigit_bcdOfWord (w : Int) {k : Nat} (hk : k < 6) : bcdDigit (bcdOfWord w) k = w.natAbs / 10 ^ k % 10 := by
  rw [bcdDigit, bcdOfWord_eq_sum]
  exact sum_digits_div_mod (d := fun k => w.natAbs / 10 ^ k % 10) (fun _ _ => decimalDigit_lt_sixteen _) hk _

theorem bcdOfWord_lt_and_div (w : Int) : bcdOfWord w < 2 ^ 25 ∧ (bcdOfWord w / 2 ^ 24 = 1 ↔ w < 0) := by
  have hlt : ∑ k ∈ Finset.range 6, w.natAbs / 10 ^ k % 10 * 16 ^ k < 16 ^ 6 :=
    sum_digits_lt fun _ _ => decimalDigit_lt_sixteen _
  rw [bcdOfWord_eq_sum]
  split <;> omega

theorem natAbs_lt_of_inW {w : Int} (h : inW w) : w.natAbs < 10 ^ 6 := by
  unfold inW wordMax at h
  omega

/-- The view of a word shows the word: its digits make the magnitude. -/
theorem wordOfBcd_bcdOfWord {w : Int} (h : inW w) : wordOfBcd (bcdOfWord w) = some w := by
  obtain ⟨hlt, hsign⟩ := bcdOfWord_lt_and_div w
  have hdigits : ∀ k < 6, bcdDigit (bcdOfWord w) k < 10 := fun k hk =>
    (bcdDigit_bcdOfWord w hk).trans_lt (Nat.mod_lt _ (by decide))
  have hmag : bcdMagnitude (bcdOfWord w) = w.natAbs :=
    calc bcdMagnitude (bcdOfWord w)
        = ∑ k ∈ Finset.range 6, w.natAbs / 10 ^ k % 10 * 10 ^ k :=
          Finset.sum_congr rfl fun k hk => by rw [bcdDigit_bcdOfWord w (Finset.mem_range.mp hk)]
      _ = w.natAbs := by rw [sum_digits_of_nat, Nat.mod_eq_of_lt (natAbs_lt_of_inW h)]
  refine (wordOfBcd_eq_some_iff _ _).mpr ⟨⟨hlt, fun hzero => ?_, hdigits⟩, ?_⟩
  · have hneg : w < 0 := hsign.mp (by rw [hzero]; rfl)
    have hmag_zero : bcdMagnitude (bcdOfWord w) = 0 := by rw [hzero]; rfl
    omega
  · simp only [hmag, hsign]
    split <;> omega

/-- A pattern that shows a word is its view: the pattern's digits are those of the magnitude. -/
theorem bcdOfWord_of_wordOfBcd {n : Nat} {w : Int} (h : wordOfBcd n = some w) : inW w ∧ bcdOfWord w = n := by
  obtain ⟨⟨hlt, hzero, hdigits⟩, hw⟩ := (wordOfBcd_eq_some_iff n w).mp h
  have hmag : w.natAbs = bcdMagnitude n := by
    rw [← hw]
    split <;> simp only [Int.natAbs_neg, Int.natAbs_natCast]
  have hbound : bcdMagnitude n < 10 ^ 6 := sum_digits_lt hdigits
  have hdigit : ∀ k < 6, w.natAbs / 10 ^ k % 10 = bcdDigit n k := fun k hk => by
    rw [hmag, bcdMagnitude]
    simpa using sum_digits_div_mod hdigits hk 0
  have hlow : ∑ k ∈ Finset.range 6, w.natAbs / 10 ^ k % 10 * 16 ^ k = n % 16 ^ 6 :=
    calc ∑ k ∈ Finset.range 6, w.natAbs / 10 ^ k % 10 * 16 ^ k
        = ∑ k ∈ Finset.range 6, bcdDigit n k * 16 ^ k :=
          Finset.sum_congr rfl fun k hk => by rw [hdigit k (Finset.mem_range.mp hk)]
      _ = n % 16 ^ 6 := sum_digits_of_nat 16 n 6
  have hlow_zero : w = 0 → n % 16 ^ 6 = 0 := by
    rintro rfl
    exact hlow.symm
  refine ⟨by unfold inW wordMax; omega, ?_⟩
  rw [bcdOfWord_eq_sum, hlow]
  split at hw <;> split <;> omega

/-- Settles O7: the view's digits are the magnitude's, in both directions. -/
theorem bcdViewShowsEveryWord : Obligations.BcdViewShowsEveryWord :=
  ⟨fun w hw => ⟨(bcdOfWord_lt_and_div w).1, (bcdOfWord_lt_and_div w).2, wordOfBcd_bcdOfWord hw⟩,
    fun _ _ => bcdOfWord_of_wordOfBcd⟩

/-! ### The mask of the opcode table -/

theorem and_opcodeMask (x : Nat) : x &&& 0x0FF0000 = x / 2 ^ 16 % 2 ^ 8 * 2 ^ 16 := by
  have hmask : 0x0FF0000 = (2 ^ 8 - 1) <<< 16 := by decide
  rw [hmask, ← Nat.shiftRight_eq_div_pow, ← Nat.shiftLeft_eq]
  refine Nat.eq_of_testBit_eq fun i => ?_
  simp only [Nat.testBit_and, Nat.testBit_shiftLeft, Nat.testBit_two_pow_sub_one, Nat.testBit_mod_two_pow,
    Nat.testBit_shiftRight]
  by_cases h : 16 ≤ i <;> simp [h, Bool.and_comm]

/-- Settles O8: the mask keeps digits 5 and 4 of the view, which are the digits of `|w| div 10000`. -/
theorem tableMaskSelectsTheOpcode : Obligations.TableMaskSelectsTheOpcode := by
  intro w o hw ho
  have hlt := natAbs_lt_of_inW hw
  have h4 := bcdDigit_bcdOfWord w (show 4 < 6 by decide)
  have h5 := bcdDigit_bcdOfWord w (show 5 < 6 by decide)
  unfold bcdDigit at h4 h5
  have hview : bcdOfWord w / 2 ^ 16 % 2 ^ 8 = w.natAbs / 10 ^ 5 % 10 * 16 + w.natAbs / 10 ^ 4 % 10 := by omega
  have hopcode : w.natAbs / 10000 = w.natAbs / 10 ^ 5 % 10 * 10 + w.natAbs / 10 ^ 4 % 10 := by omega
  rw [and_opcodeMask, hview, hopcode]
  omega

end Sys2Proof.Machine

/-! PROOFS. The cycle (R70 to R79): what a step does in each status and at each fetch, and that it stops at the two
refusals only (R133, U4). -/

namespace Sys2Proof.Machine

/-! ### The sequential advance (R75) -/

theorem nextIc_of_lt {n : Nat} (h : n + 1 < pageSize) : nextIc n = n + 1 := if_neg (Nat.not_le.mpr h)

theorem nextIc_of_pageEnd_le {n : Nat} (h : pageSize ≤ n + 1) : nextIc n = 0 := if_pos h

/-- Settles O14: below the page's last location the successor is the next one, from there on it is 0. -/
theorem sequentialAdvanceWrapsAtPageEnd : Obligations.SequentialAdvanceWrapsAtPageEnd :=
  ⟨fun _ _ => nextIc_of_lt (by unfold pageSize; omega), nextIc_of_pageEnd_le le_rfl,
    fun _ hn => nextIc_of_pageEnd_le (Nat.le_succ_of_le hn)⟩

/-! ### The step in each status (R70, R81) -/

section Status

variable {s : State}

theorem step_of_idle (h : s.status = .idle) : step s = .next s := by simp only [step, h]

theorem step_of_running (h : s.status = .running) : step s = s.cycle := by simp only [step, h]

theorem step_of_haltedNormal {p q : Nat} (h : s.status = .haltedNormal p q) : step s = .fault .runEnded := by
  simp only [step, h]

theorem step_of_haltedFault {k : FaultKind} {v : Int} {a : Nat} (h : s.status = .haltedFault k v a) :
    step s = .fault .runEnded := by
  simp only [step, h]

/-- R71, D4: a fetch outside memory takes the fault and does nothing else. -/
theorem step_of_fetch_outside (hrun : s.status = .running) (hic : s.cfg.memSize ≤ s.ic) :
    step s = .next (s.raise .outOfRangeAccess s.ic) :=
  (step_of_running hrun).trans (State.readAbsolute_outside hic _)

/-- R79: an instruction waits exactly when it is a READ of a location of memory and the input source is empty. -/
theorem State.waits_iff {i : Instr} : s.waits i = true ↔ ∃ a, i = .read a ∧ a < s.cfg.memSize ∧ s.input = [] := by
  constructor
  · intro h
    obtain ⟨a, rfl, hblocked⟩ := State.waits_read h
    exact ⟨a, rfl, (s.blocked_iff a).mp hblocked⟩
  · rintro ⟨a, rfl, h⟩
    exact (s.blocked_iff a).mpr h

end Status

/-- Settles O13: the step's equation in each of the three other forms of the status. -/
theorem noCycleOutsideARun : Obligations.NoCycleOutsideARun :=
  fun _ => ⟨step_of_idle, fun _ _ => step_of_haltedNormal, fun _ _ _ => step_of_haltedFault⟩

/-- Settles O9: the cycle dispatches the decoded word from the state after the fetch. -/
theorem stepRunsTheDecodedInstruction : Obligations.StepRunsTheDecodedInstruction :=
  fun _ _ hrun hic hd hwait => step_of_decode_known hrun hic rfl hd hwait

/-- Settles O11: the fetch's bounds check comes before everything else of the cycle. -/
theorem stepFaultsOnFetchOutsideMemory : Obligations.StepFaultsOnFetchOutsideMemory :=
  fun _ hrun hic => step_of_fetch_outside hrun hic

/-- Settles O12: by `State.waits_iff`, a waiting READ is one with its location in memory and no input. -/
theorem readWithoutInputWaits : Obligations.ReadWithoutInputWaits :=
  ⟨fun _ a hrun hic hd ha hin => step_of_decode_waits hrun hic rfl hd (State.waits_iff.mpr ⟨a, rfl, ha, hin⟩),
    fun _ _ => State.waits_iff⟩

/-! ### The operations that never stop the machine: a fault of the spec is a next state (R181) -/

section Next

variable {s : State} {a v : Int}

theorem State.memRead_next {k : Int → Result} (hk : ∀ x, ∃ t, k x = .next t) : ∃ t, s.memRead a k = .next t := by
  obtain ⟨-, e⟩ | ⟨-, e⟩ := s.memRead_cases a k
  · exact e ▸ hk _
  · exact ⟨_, e⟩

theorem State.memWrite_next {k : State → Result} (hk : ∀ x, ∃ t, k x = .next t) :
    ∃ t, s.memWrite a v k = .next t := by
  obtain ⟨-, e⟩ | ⟨-, e⟩ := s.memWrite_cases a v k
  · exact e ▸ hk _
  · exact ⟨_, e⟩

theorem State.finishChecked_next : ∃ t, s.finishChecked v = .next t := by
  obtain ⟨-, e⟩ | ⟨-, e⟩ := s.finishChecked_cases v <;> exact ⟨_, e⟩

theorem State.finishDivide_next : ∃ t, s.finishDivide v = .next t := by
  obtain ⟨-, e⟩ | ⟨-, e⟩ := s.finishDivide_cases v <;> exact ⟨_, e⟩

theorem execBranchneg_next {d : Nat} : ∃ t, execBranchneg d s = .next t := by
  unfold execBranchneg
  split
  · exact ⟨_, rfl⟩
  · split <;> exact ⟨_, rfl⟩

theorem execBranchzero_next {d : Nat} : ∃ t, execBranchzero d s = .next t := by
  unfold execBranchzero
  split <;> exact ⟨_, rfl⟩

end Next

/-! ### The refusals -/

/-- The situations in which an instruction is refused, and for which reason (R133, U4). -/
inductive ExecRefused (s : State) : Instr → Refusal → Prop where
  | inc {d} : atCapacity s.cfg s.xr = true → ExecRefused s (.inc d) .indexCapacity
  | dec {d} : atCapacity s.cfg (-s.xr) = true → ExecRefused s (.dec d) .indexCapacity
  | read {a v rest} : a < s.cfg.memSize → s.input = v :: rest → ¬ inW v → ExecRefused s (.read a) .inputOutOfRange

theorem execRead_next_or_refused (a : Nat) (s : State) :
    (∃ t, execRead a s = .next t) ∨ ∃ r, ExecRefused s (.read a) r ∧ execRead a s = .refused r := by
  unfold execRead
  obtain ha | ha := Nat.lt_or_ge a s.cfg.memSize
  · rw [State.readAbsolute_inside ha]
    split
    · exact .inl ⟨_, rfl⟩
    · next v rest hin =>
      split
      · exact .inl (State.memWrite_next fun _ => ⟨_, rfl⟩)
      · next hv => exact .inr ⟨_, .read ha hin hv, rfl⟩
  · exact .inl ⟨_, State.readAbsolute_outside ha _⟩

/-- Every instruction answers a next state or is refused for its reason. -/
theorem exec_next_or_refused (i : Instr) (s : State) :
    (∃ t, exec i s = .next t) ∨ ∃ r, ExecRefused s i r ∧ exec i s = .refused r := by
  cases i with
  | read a => exact execRead_next_or_refused a s
  | inc d =>
    rw [exec_inc]
    split
    · next h => exact .inr ⟨_, .inc h, rfl⟩
    · exact .inl ⟨_, rfl⟩
  | dec d =>
    rw [exec_dec]
    split
    · next h => exact .inr ⟨_, .dec h, rfl⟩
    · exact .inl ⟨_, rfl⟩
  | write | load | loadx | loadidx => exact .inl (State.memRead_next fun _ => ⟨_, rfl⟩)
  | store | storeidx => exact .inl (State.memWrite_next fun _ => ⟨_, rfl⟩)
  | add | addx | subtract | subtractx | multiply | multiplyx =>
    exact .inl (State.memRead_next fun _ => State.finishChecked_next)
  | divide | dividex => exact .inl (State.memRead_next fun _ => State.finishDivide_next)
  | branchneg => exact .inl execBranchneg_next
  | branchzero => exact .inl execBranchzero_next
  | loadim | branch | swap | halt => exact .inl ⟨_, rfl⟩

/-- R77, R78: a running engine's step answers a next state, or the decoded instruction is refused. -/
theorem step_next_or_refused {s : State} (hrun : s.status = .running) :
    (∃ t, step s = .next t) ∨
      ∃ i r, decode (s.mem.read s.ic) = .known i ∧ ExecRefused s i r ∧ step s = .refused r := by
  obtain hic | hic := Nat.lt_or_ge s.ic s.cfg.memSize
  · cases hd : decode (s.mem.read s.ic) with
    | unknown c => exact .inl ⟨_, step_of_decode_unknown hrun hic rfl hd⟩
    | known i =>
      cases hwait : s.waits i with
      | true => exact .inl ⟨s, step_of_decode_waits hrun hic rfl hd hwait⟩
      | false =>
        rw [step_of_decode_known hrun hic rfl hd hwait]
        obtain hnext | ⟨r, hr, e⟩ := exec_next_or_refused i (s.fetched (s.mem.read s.ic))
        · exact .inl hnext
        · refine .inr ⟨i, r, rfl, ?_, e⟩
          cases hr with
          | inc h => exact .inc h
          | dec h => exact .dec h
          | read ha hin hv => exact .read ha hin hv
  · exact .inl ⟨_, step_of_fetch_outside hrun hic⟩

/-- Settles O56: the step's refusals are those of the decoded instruction. -/
theorem runningStepAnswersNextStateUnlessRefused : Obligations.RunningStepAnswersNextStateUnlessRefused := by
  intro s hrun
  obtain hnext | ⟨i, r, hd, hr, e⟩ := step_next_or_refused hrun
  · exact .inl hnext
  · cases hr with
    | inc h => exact .inr (.inl ⟨e, _, .inl ⟨hd, (atCapacity_iff _ _).mp h⟩⟩)
    | dec h => exact .inr (.inl ⟨e, _, .inr ⟨hd, (atCapacity_iff _ _).mp h⟩⟩)
    | read _ hin hv => exact .inr (.inr ⟨e, _, _, _, hd, hin, hv⟩)

end Sys2Proof.Machine

/-! PROOFS. Input and output: WRITE (R91). -/

namespace Sys2Proof.Machine

/-- R51, R55: a word whose opcode is known is read by that opcode's arm of the map, in either sign. -/
theorem decode_eq_decodeFields {w : Int} {o : Nat} (h : w.natAbs / 10000 = o) :
    decode w = decodeFields o (w.natAbs % 10000) :=
  congrArg (decodeFields · (operandOf w)) h

/-- Settles O17: the opcode map's arm for 11, then the bounds-checked read inside and outside memory. -/
theorem writeEmitsTheCell : Obligations.WriteEmitsTheCell := by
  refine ⟨fun w hw => decode_eq_decodeFields hw, fun a s => ⟨fun ha => ?_, fun ha => ?_⟩⟩
  · rw [exec_write, State.readAbsolute_inside ha]
    rfl
  · rw [exec_write, State.readAbsolute_outside ha]

end Sys2Proof.Machine

/-! PROOFS. Loads and stores (R100 to R105): the cell or the word that is loaded, and the memory after a store. -/

namespace Sys2Proof.Machine

/-! ### The word LOADIM loads (R101) -/

/-- 00_scope.md section 6.3: a dividend of smaller magnitude than the divisor is its own remainder. -/
theorem trem_natCast_right_of_natAbs_lt {a : Int} {n : Nat} (h : a.natAbs < n) : trem a n = a := by
  rw [trem_natCast_right, Nat.mod_eq_of_lt h, Int.sign_mul_natAbs]

/-- R51, R55: the magnitudes of LOADIM words. -/
theorem natAbs_of_decode_loadim {w : Int} {d : Nat} (h : decode w = .known (.loadim d)) :
    210000 ≤ w.natAbs ∧ w.natAbs ≤ 219999 := by
  have hop : 21 = w.natAbs / 10000 := opcode_of_decode h
  omega

/-- Settles O19: a LOADIM word's magnitude is below 1000000, so the remainder is the word. -/
theorem loadimLoadsTheWholeWord : Obligations.LoadimLoadsTheWholeWord := by
  refine ⟨fun w hw => decode_eq_decodeFields hw, fun d s =>
    ⟨exec_loadim d s, trem_natCast_right s.ir 1000000, fun hd => ?_⟩⟩
  obtain ⟨hlow, hhigh⟩ := natAbs_of_decode_loadim hd
  have hlt : s.ir.natAbs < 1000000 := by omega
  exact ⟨trem_natCast_right_of_natAbs_lt hlt, hlow, hhigh⟩

/-! ### STORE and STOREIDX (R104, R105) -/

theorem State.memWrite_absolute_outside {s : State} {a : Nat} (h : s.cfg.memSize ≤ a) (v : Int) (k : State → Result) :
    s.memWrite (absolute a) v k = .next (s.raise .outOfRangeAccess a) :=
  memWrite_outside (fun hin => absurd ((s.inMemory_absolute a).mp hin) (Nat.not_lt.mpr h)) v k

theorem State.memWrite_indexed_outside {s : State} (h : s.xr < 0 ∨ (s.cfg.memSize : Int) ≤ s.xr) (v : Int)
    (k : State → Result) : s.memWrite s.indexed v k = .next (s.raise .outOfRangeAccess s.xr) :=
  memWrite_outside (by unfold indexed inMemory; omega) v k

/-- R32: the memory a store leaves is canonical, holds the value at the location and is as before everywhere else. -/
theorem State.setMem_advance_spec {s : State} (hwf : s.mem.wf) (a : Nat) (v : Int) :
    ∃ m : Memory, (s.setMem a v).advance = { s with mem := m, ic := nextIc s.ic } ∧
      m.wf ∧ m.read a = v ∧ ∀ b, b ≠ a → m.read b = s.mem.read b :=
  ⟨s.mem.write a v, rfl, Memory.write_wf hwf a v, Memory.read_write_same hwf a v,
    fun _ => Memory.read_write_other s.mem v⟩

/-- Settles O22: inside memory STORE is one write and the advance, outside it the fault. -/
theorem storeWritesAccToCell : Obligations.StoreWritesAccToCell := by
  refine ⟨fun w hw => decode_eq_decodeFields hw, fun a s hwf => ⟨fun ha => ?_, fun ha => ?_⟩⟩
  · obtain ⟨m, hm, hspec⟩ := State.setMem_advance_spec hwf a s.acc
    exact ⟨m, (exec_store_inside ha).trans (congrArg _ hm), hspec⟩
  · rw [exec_store, State.memWrite_absolute_outside ha]

/-- Settles O23: with `xr` a location STOREIDX is one write there and the advance, otherwise the fault. -/
theorem storeidxWritesAccToIndexedCell : Obligations.StoreidxWritesAccToIndexedCell := by
  refine ⟨fun w hw => decode_eq_decodeFields hw, fun d s hwf => ⟨fun h0 hlt => ?_, fun hout => ?_⟩⟩
  · have ha : s.xr.toNat < s.cfg.memSize := by omega
    have hxr : s.xr = s.xr.toNat := (Int.toNat_of_nonneg h0).symm
    obtain ⟨m, hm, hspec⟩ := State.setMem_advance_spec hwf s.xr.toNat s.acc
    exact ⟨m, (exec_storeidx_inside ha d hxr).trans (congrArg _ hm), hspec⟩
  · rw [exec_storeidx, State.memWrite_indexed_outside hout]

/-! ### LOAD, LOADX and LOADIDX (R100, R102, R103) -/

/-- Settles O18: the bounds-checked read of the operand's cell, into `acc`. -/
theorem loadCopiesCellToAcc : Obligations.LoadCopiesCellToAcc := by
  refine ⟨fun w hw => decode_eq_decodeFields hw, fun a s => ⟨fun ha => ?_, fun ha => ?_⟩⟩
  · rw [exec_load, State.readAbsolute_inside ha]
    rfl
  · rw [exec_load, State.readAbsolute_outside ha]

/-- Settles O20: the bounds-checked read of the operand's cell, into `xr`. -/
theorem loadxCopiesCellToXr : Obligations.LoadxCopiesCellToXr := by
  refine ⟨fun w hw => decode_eq_decodeFields hw, fun a s => ⟨fun ha => ?_, fun ha => ?_⟩⟩
  · rw [exec_loadx, State.readAbsolute_inside ha]
    rfl
  · rw [exec_loadx, State.readAbsolute_outside ha]

/-- Settles O21: the bounds-checked read of the cell `xr` names, into `acc`. -/
theorem loadidxCopiesIndexedCellToAcc : Obligations.LoadidxCopiesIndexedCellToAcc := by
  refine ⟨fun w hw => decode_eq_decodeFields hw, fun d s => ⟨fun h0 hlt => ?_, fun hout => ?_⟩⟩
  · rw [exec_loadidx, State.readIndexed_inside h0 hlt]
    rfl
  · rw [exec_loadidx, State.readIndexed_outside hout]

end Sys2Proof.Machine

/-! PROOFS. The accumulator instructions (R110 to R119): the exact result or the overflow, and the truncating division. -/

namespace Sys2Proof.Machine

/-! ### The quotient and its rest (R119) -/

theorem natAbs_trem_lt (a : Int) {d : Int} (hd : d ≠ 0) : (trem a d).natAbs < d.natAbs := by
  rw [trem_eq_int_tmod, Int.natAbs_tmod]
  exact Nat.mod_lt _ (Int.natAbs_pos.mpr hd)

theorem trem_nonneg {a : Int} (d : Int) (ha : 0 ≤ a) : 0 ≤ trem a d := by
  rw [trem_eq_int_tmod]
  exact Int.tmod_nonneg d ha

theorem trem_nonpos {a : Int} (d : Int) (ha : a ≤ 0) : trem a d ≤ 0 := by
  have h := trem_nonneg d (Int.neg_nonneg_of_nonpos ha)
  rw [trem_neg_left] at h
  omega

/-- Settles O32: the rest is `trem a d`, bounded by the divisor, with the dividend's sign. -/
theorem divisionTruncatesTowardZero : Obligations.DivisionTruncatesTowardZero :=
  fun a d hd => ⟨rfl, natAbs_trem_lt a hd, trem_nonneg d, trem_nonpos d, natAbs_tdiv_le a d,
    fun ha => inW_mono ha (natAbs_tdiv_le a d)⟩

/-! ### ADD, SUBTRACT, MULTIPLY and their X-forms (R111 to R114, R117, R118) -/

section Checked

variable (s : State)

/-- R110: an exact result that is a word stays in `acc`, and `ic` advances. -/
theorem State.finishChecked_of_le {v : Int} (hlow : -999999 ≤ v) (hhigh : v ≤ 999999) :
    s.finishChecked v = .next { s with acc := v, ic := nextIc s.ic } :=
  finishChecked_word ((not_overflows_iff v).mpr ⟨hlow, hhigh⟩)

/-- R110: any other exact result ends the run, and `acc` holds it. -/
theorem State.finishChecked_of_lt {v : Int} (h : v < -999999 ∨ 999999 < v) :
    s.finishChecked v = .next (({ s with acc := v } : State).raise .accumulatorOverflow v) :=
  finishChecked_overflow h.symm

/-- The plain forms: `f` gives the exact result from the operand's cell. -/
theorem State.readAbsolute_finishChecked (a : Nat) (f : Int → Int) :
    (a < s.cfg.memSize → -999999 ≤ f (s.mem.read a) → f (s.mem.read a) ≤ 999999 →
      s.readAbsolute a (fun m => s.finishChecked (f m)) =
        .next { s with acc := f (s.mem.read a), ic := nextIc s.ic }) ∧
    (a < s.cfg.memSize → f (s.mem.read a) < -999999 ∨ 999999 < f (s.mem.read a) →
      s.readAbsolute a (fun m => s.finishChecked (f m)) =
        .next (({ s with acc := f (s.mem.read a) } : State).raise .accumulatorOverflow (f (s.mem.read a)))) ∧
    (s.cfg.memSize ≤ a →
      s.readAbsolute a (fun m => s.finishChecked (f m)) = .next (s.raise .outOfRangeAccess a)) := by
  refine ⟨fun ha hlow hhigh => ?_, fun ha hover => ?_, fun ha => readAbsolute_outside ha _⟩
  · rw [readAbsolute_inside ha, finishChecked_of_le s hlow hhigh]
  · rw [readAbsolute_inside ha, finishChecked_of_lt s hover]

/-- The X-forms: `f` gives the exact result from the cell `xr` names. -/
theorem State.readIndexed_finishChecked (f : Int → Int) :
    (0 ≤ s.xr → s.xr < (s.cfg.memSize : Int) →
      -999999 ≤ f (s.mem.read s.xr.toNat) → f (s.mem.read s.xr.toNat) ≤ 999999 →
      s.readIndexed (fun m => s.finishChecked (f m)) =
        .next { s with acc := f (s.mem.read s.xr.toNat), ic := nextIc s.ic }) ∧
    (0 ≤ s.xr → s.xr < (s.cfg.memSize : Int) →
      f (s.mem.read s.xr.toNat) < -999999 ∨ 999999 < f (s.mem.read s.xr.toNat) →
      s.readIndexed (fun m => s.finishChecked (f m)) =
        .next (({ s with acc := f (s.mem.read s.xr.toNat) } : State).raise .accumulatorOverflow
          (f (s.mem.read s.xr.toNat)))) ∧
    (s.xr < 0 ∨ (s.cfg.memSize : Int) ≤ s.xr →
      s.readIndexed (fun m => s.finishChecked (f m)) = .next (s.raise .outOfRangeAccess s.xr)) := by
  refine ⟨fun h0 hlt hlow hhigh => ?_, fun h0 hlt hover => ?_, fun hout => readIndexed_outside hout _⟩
  · rw [readIndexed_inside h0 hlt, finishChecked_of_le s hlow hhigh]
  · rw [readIndexed_inside h0 hlt, finishChecked_of_lt s hover]

end Checked

/-- Settles O24: the checked result is `acc + m`. -/
theorem addIsExactOrOverflows : Obligations.AddIsExactOrOverflows :=
  ⟨fun _ hw => decode_eq_decodeFields hw, fun a s => s.readAbsolute_finishChecked a (s.acc + ·)⟩

/-- Settles O25: the checked result is `acc + m`, with `m` at `xr`. -/
theorem addxIsExactOrOverflows : Obligations.AddxIsExactOrOverflows :=
  ⟨fun _ hw => decode_eq_decodeFields hw, fun _ s => s.readIndexed_finishChecked (s.acc + ·)⟩

/-- Settles O26: the checked result is `acc - m`. -/
theorem subtractIsExactOrOverflows : Obligations.SubtractIsExactOrOverflows :=
  ⟨fun _ hw => decode_eq_decodeFields hw, fun a s => s.readAbsolute_finishChecked a (s.acc - ·)⟩

/-- Settles O27: the checked result is `acc - m`, with `m` at `xr`. -/
theorem subtractxIsExactOrOverflows : Obligations.SubtractxIsExactOrOverflows :=
  ⟨fun _ hw => decode_eq_decodeFields hw, fun _ s => s.readIndexed_finishChecked (s.acc - ·)⟩

/-- Settles O30: the checked result is `acc * m`. -/
theorem multiplyIsExactOrOverflows : Obligations.MultiplyIsExactOrOverflows :=
  ⟨fun _ hw => decode_eq_decodeFields hw, fun a s => s.readAbsolute_finishChecked a (s.acc * ·)⟩

/-- Settles O31: the checked result is `acc * m`, with `m` at `xr`. -/
theorem multiplyxIsExactOrOverflows : Obligations.MultiplyxIsExactOrOverflows :=
  ⟨fun _ hw => decode_eq_decodeFields hw, fun _ s => s.readIndexed_finishChecked (s.acc * ·)⟩

/-! ### DIVIDE and DIVIDEX (R115, R116) -/

/-- R115: a non-zero divisor leaves Lean's truncating quotient in `acc`, and `ic` advances. -/
theorem State.finishDivide_of_ne_zero (s : State) {m : Int} (hm : m ≠ 0) :
    s.finishDivide m = .next { s with acc := Int.tdiv s.acc m, ic := nextIc s.ic } := by
  rw [finishDivide_nonzero hm, tdiv_eq_int_tdiv]
  rfl

/-- Settles O28: the bounds-checked read of the divisor, then its test for zero. -/
theorem divideTruncatesOrFaults : Obligations.DivideTruncatesOrFaults := by
  refine ⟨fun w hw => decode_eq_decodeFields hw, fun a s => ⟨fun ha hm => ?_, fun ha hm => ?_, fun ha => ?_⟩⟩
  · rw [exec_divide, State.readAbsolute_inside ha, s.finishDivide_of_ne_zero hm]
  · rw [exec_divide, State.readAbsolute_inside ha, State.finishDivide_zero hm]
  · rw [exec_divide, State.readAbsolute_outside ha]

/-- Settles O29: the bounds-checked read of the divisor `xr` names, then its test for zero. -/
theorem dividexTruncatesOrFaults : Obligations.DividexTruncatesOrFaults := by
  refine ⟨fun w hw => decode_eq_decodeFields hw, fun d s =>
    ⟨fun h0 hlt hm => ?_, fun h0 hlt hm => ?_, fun hout => ?_⟩⟩
  · rw [exec_dividex, State.readIndexed_inside h0 hlt, s.finishDivide_of_ne_zero hm]
  · rw [exec_dividex, State.readIndexed_inside h0 hlt, State.finishDivide_zero hm]
  · rw [exec_dividex, State.readIndexed_outside hout]

end Sys2Proof.Machine

/-! PROOFS. The index register (R130 to R133): INC and DEC up to the capacity, and SWAP. -/

namespace Sys2Proof.Machine

/-- R133: the guard of INC and DEC at a value other than `CAP`. -/
theorem not_atCapacity {c : Config} {v : Int} (h : c.cap.map Int.ofNat ≠ some v) : ¬ atCapacity c v = true :=
  mt (atCapacity_iff c v).mp h

/-- Settles O33: INC's one test is `xr` against the capacity. -/
theorem incAddsOneToXr : Obligations.IncAddsOneToXr := by
  refine ⟨fun w hw => decode_eq_decodeFields hw, fun d s => ⟨fun hbelow => ?_, fun hcap => ?_⟩⟩
  · rw [exec_inc, if_neg (not_atCapacity hbelow)]
    rfl
  · rw [exec_inc, if_pos ((atCapacity_iff _ _).mpr hcap)]

/-- Settles O34: DEC's one test is `-xr` against the capacity. -/
theorem decTakesOneFromXr : Obligations.DecTakesOneFromXr := by
  refine ⟨fun w hw => decode_eq_decodeFields hw, fun d s => ⟨fun habove => ?_, fun hcap => ?_⟩⟩
  · rw [exec_dec, if_neg (not_atCapacity habove)]
    rfl
  · rw [exec_dec, if_pos ((atCapacity_iff _ _).mpr hcap)]

/-- Settles O35: SWAP has one outcome, and a second SWAP exchanges the exchanged pair. -/
theorem swapExchangesAccAndXr : Obligations.SwapExchangesAccAndXr :=
  ⟨fun _ hw => decode_eq_decodeFields hw, fun d e s =>
    ⟨exec_swap d s, _, _, exec_swap d s, exec_swap e _, rfl, rfl⟩⟩

end Sys2Proof.Machine

/-! PROOFS. The branches (R140 to R142): where each leaves `ic`, and the fetch of a target outside memory. -/

namespace Sys2Proof.Machine

/-- R140, R71: BRANCH is not checked, so a target outside memory faults at the next fetch, with `ic` at the target. -/
theorem step_setIc_outside {s : State} {d : Nat} (hrun : s.status = .running) (hd : s.cfg.memSize ≤ d) :
    step (s.setIc d) = .next ((s.setIc d).raise .outOfRangeAccess d) :=
  step_of_fetch_outside hrun hd

/-- Settles O36: BRANCH has one outcome, and the next step fetches at its target. -/
theorem branchSetsIcToOperand : Obligations.BranchSetsIcToOperand :=
  ⟨fun _ hw => decode_eq_decodeFields hw, fun d s =>
    ⟨exec_branch d s, fun hrun hd => ⟨s.setIc d, exec_branch d s, step_setIc_outside hrun hd, s.setIc_ic d⟩⟩⟩

section BranchNegative

variable {s : State} (d : Nat)

theorem exec_branchneg_taken (hneg : s.acc < 0) : exec (.branchneg d) s = .next (s.setIc d) := by
  rw [exec_branchneg, execBranchneg, if_pos hneg]

theorem exec_branchneg_not_taken (hacc : 0 ≤ s.acc) :
    exec (.branchneg d) s = if s.ic = quirkLoc then .next (s.setIc 0) else .next s.advance := by
  rw [exec_branchneg, execBranchneg, if_neg (Int.not_lt.mpr hacc)]

end BranchNegative

/-- Settles O37: BRANCHNEG tests `acc`, and the location only when it is not taken. -/
theorem branchnegHasTheLocationThreeQuirk : Obligations.BranchnegHasTheLocationThreeQuirk := by
  refine ⟨fun w hw => decode_eq_decodeFields hw, fun d s =>
    ⟨exec_branchneg_taken d, fun hacc hquirk => ?_, fun hacc hother => ?_⟩⟩
  · exact (exec_branchneg_not_taken d hacc).trans (if_pos hquirk)
  · exact (exec_branchneg_not_taken d hacc).trans (if_neg hother)

/-- Settles O38: BRANCHZERO's one test is `acc` against zero. -/
theorem branchzeroBranchesOnZero : Obligations.BranchzeroBranchesOnZero := by
  refine ⟨fun w hw => decode_eq_decodeFields hw, fun d s => ⟨fun hzero => ?_, fun hne => ?_⟩⟩
  · exact (exec_branchzero d s).trans (if_pos hzero)
  · exact (exec_branchzero d s).trans (if_neg hne)

end Sys2Proof.Machine

/-! PROOFS. Page arithmetic (R153): a location and its page, row and column. -/

namespace Sys2Proof.Machine

/-- R153: the digits of any location give it back; page numbers above 99 are no exception. -/
@[simp] theorem locationOf_pageOf_rowOf_colOf (a : Nat) : locationOf (pageOf a) (rowOf a) (colOf a) = a := by
  have hrow : a % pageSize / 10 * 10 + a % pageSize % 10 = a % pageSize := Nat.div_add_mod' ..
  have hcol : a % pageSize % 10 = a % 10 := Nat.mod_mod_of_dvd a (by decide)
  calc a / pageSize * pageSize + a % pageSize / 10 * 10 + a % 10
      = a / pageSize * pageSize + a % pageSize := by rw [Nat.add_assoc, ← hcol, hrow]
    _ = a := Nat.div_add_mod' ..

theorem pageOf_le {a : Nat} (ha : a ≤ 9999) : pageOf a ≤ 99 := Nat.div_le_div_right (c := pageSize) ha

theorem rowOf_le (a : Nat) : rowOf a ≤ 9 :=
  Nat.div_le_div_right (c := 10) (Nat.le_of_lt_succ (Nat.mod_lt a (by decide : 0 < pageSize)))

theorem colOf_le (a : Nat) : colOf a ≤ 9 := Nat.le_of_lt_succ (Nat.mod_lt a (by decide))

theorem locationOf_le {p r c : Nat} (hp : p ≤ 99) (hr : r ≤ 9) (hc : c ≤ 9) : locationOf p r c ≤ 9999 := by
  unfold locationOf pageSize; omega

section LocationOf

variable (p : Nat) {r c : Nat}

theorem pageOf_locationOf (hr : r ≤ 9) (hc : c ≤ 9) : pageOf (locationOf p r c) = p := by
  unfold pageOf locationOf pageSize; omega

theorem rowOf_locationOf (hr : r ≤ 9) (hc : c ≤ 9) : rowOf (locationOf p r c) = r := by
  unfold rowOf locationOf pageSize; omega

/-- R153: the page and the row contribute multiples of ten, so the column is the last decimal digit. -/
theorem colOf_locationOf (r : Nat) (hc : c ≤ 9) : colOf (locationOf p r c) = c := by
  unfold colOf locationOf pageSize; omega

end LocationOf

/-- Settles O55: the digits of a location give it back, and a location gives back in-range digits. -/
theorem pageArithmeticRoundTrips : Obligations.PageArithmeticRoundTrips :=
  ⟨fun a ha => ⟨rfl, rfl, rfl, pageOf_le ha, rowOf_le a, colOf_le a, locationOf_pageOf_rowOf_colOf a⟩,
    fun p r _ hp hr hc => ⟨rfl, locationOf_le hp hr hc, pageOf_locationOf p hr hc, rowOf_locationOf p hr hc,
      colOf_locationOf p r hc⟩⟩

end Sys2Proof.Machine

/-! PROOFS. The ports (R160 to R169): the moves of the surroundings, and what one cycle puts on the event ports and takes
from the input source. -/

namespace Sys2Proof.Machine

/-! ### The moves of the surroundings -/

/-- The moves the surroundings can make, each with the state it gives (R161, R162, R164, R210; log entry 16). -/
inductive HostMoved (s : State) : HostMove → State → Prop where
  | reset : HostMoved s .reset (State.resetWith s.cfg)
  | load {loc word} : s.status = .idle → loc < s.cfg.memSize → inW word →
      HostMoved s (.load loc word) { s with mem := s.mem.write loc word }
  | start : s.status = .idle → HostMoved s .start { s with status := .running, ic := entry }
  | supply {v} : inW v → HostMoved s (.supply v) { s with input := s.input ++ [v] }

section Surroundings

variable {s t : State}

theorem State.hostMove_cases {mv : HostMove} (h : s.hostMove mv = some t) : HostMoved s mv t := by
  cases mv with
  | reset => cases h; exact .reset
  | load loc word =>
    obtain ⟨⟨hidle, hloc, hword⟩, ht⟩ := Option.ite_none_right_eq_some.mp h
    cases ht
    exact .load hidle hloc hword
  | start =>
    obtain ⟨hidle, ht⟩ := Option.ite_none_right_eq_some.mp h
    cases ht
    exact .start hidle
  | supply v =>
    obtain ⟨hv, ht⟩ := Option.ite_none_right_eq_some.mp h
    cases ht
    exact .supply hv

/-- R162: a word fits every cell, and an idle engine's status says nothing of memory. -/
theorem State.Inv.load {loc : Nat} {word : Int} (h : s.Inv) (hloc : loc < s.cfg.memSize) (hword : inW word)
    (hidle : s.status = .idle) : State.Inv { s with mem := s.mem.write loc word } :=
  { h with
    canonical := Memory.write_wf h.canonical loc word
    bounded := Memory.forall_mem_write h.bounded hloc
    cellsHeld := Memory.forall_mem_write h.cellsHeld (Config.holds_of_inW h.config hword)
    statusOk := by simpa [State.StatusOk, hidle] using h.statusOk }

theorem State.Inv.start (h : s.Inv) (hidle : s.status = .idle) :
    State.Inv { s with status := .running, ic := entry } :=
  { h with
    icRange := Nat.zero_le _
    accHeld := fun _ => h.accHeld (by simp [State.overflowed, hidle])
    statusOk := statusOk_of_running rfl }

/-- The invariant does not speak of what the input source holds. -/
theorem State.Inv.withInput (h : s.Inv) (l : List Int) : State.Inv { s with input := l } := { h with }

end Surroundings

/-- Settles O49: each move the surroundings can make keeps the invariant. -/
theorem hostMovesKeepTheInvariant : Obligations.HostMovesKeepTheInvariant := by
  intro s t mv hs h
  cases State.hostMove_cases h with
  | reset => exact resetWith_inv hs.config
  | load hidle hloc hword => exact hs.load hloc hword hidle
  | start hidle => exact hs.start hidle
  | supply => exact hs.withInput _

/-- Settles O52: a loader write and a start need an idle engine, which leaves reset and a supplied value. -/
theorem surroundingsWriteNothingAfterStart : Obligations.SurroundingsWriteNothingAfterStart := by
  intro s t mv hstarted h
  cases State.hostMove_cases h with
  | reset => exact .inl ⟨rfl, rfl⟩
  | load hidle | start hidle => exact absurd hidle hstarted
  | supply hv => exact .inr ⟨_, hv, rfl, rfl⟩

/-! ### The events and the input of one cycle -/

section Ports

variable {s t : State} {a : Nat}

/-- R164, D9: a READ that takes a value shows the request first, then the value. -/
theorem exec_read_ports {v : Int} {rest : List Int} (ha : a < s.cfg.memSize) (hin : s.input = v :: rest)
    (h : exec (.read a) s = .next t) : t.events = s.events ++ [.inputRequest, .input v] ∧ t.input = rest := by
  by_cases hv : inW v
  · cases (exec_read_inside ha hin hv).symm.trans h
    simp
  · simp [exec_read, execRead, State.readAbsolute_inside ha, hin, hv] at h

/-- R165: a WRITE shows the addressed cell and takes nothing. -/
theorem exec_write_ports (ha : a < s.cfg.memSize) (h : exec (.write a) s = .next t) :
    t.events = s.events ++ [.output (s.mem.read a)] ∧ t.input = s.input := by
  rw [exec_write, State.readAbsolute_inside ha] at h
  cases h
  exact ⟨rfl, rfl⟩

/-- R90, R91, D7: the address check of READ and WRITE comes before anything crosses a port. -/
theorem exec_outside_ports {i : Instr} (hi : i = .read a ∨ i = .write a) (ha : s.cfg.memSize ≤ a)
    (h : exec i s = .next t) : t.events = s.events ∧ t.input = s.input := by
  have hfault : exec i s = .next (s.raise .outOfRangeAccess a) := by
    obtain rfl | rfl := hi
    · rw [exec_read, execRead, State.readAbsolute_outside ha]
    · rw [exec_write, State.readAbsolute_outside ha]
  cases hfault.symm.trans h
  exact ⟨rfl, rfl⟩

end Ports

/-- Settles O50: a blocked READ leaves the state as it is; every other cycle appends the trace event and then what the
decoded instruction puts on the ports. -/
theorem eventsOfOneCycle : Obligations.EventsOfOneCycle := by
  rintro s t w e hrun hic rfl rfl h
  have hexec {i : Instr} (hd : decode (s.mem.read s.ic) = .known i) (hwait : ¬ s.waits i = true) :
      exec i (s.fetched (s.mem.read s.ic)) = .next t :=
    (step_of_decode_known hrun hic rfl hd (Bool.eq_false_iff.mpr hwait)).symm.trans h
  refine ⟨fun a hd ha hin => ?_, fun a v rest hd ha hin => ?_, fun a hd ha => ?_, fun a hd ha => ?_,
    fun hread hwrite => ?_⟩
  · cases (step_of_decode_waits hrun hic rfl hd (State.waits_iff.mpr ⟨a, rfl, ha, hin⟩)).symm.trans h
    rfl
  · have hex := hexec hd (by simp [State.waits_iff, hin])
    obtain ⟨hevents, hinput⟩ := exec_read_ports (s := s.fetched _) ha hin hex
    exact ⟨hevents.trans (List.append_assoc ..), hinput⟩
  · have hex := hexec hd (by simp [State.waits_iff])
    obtain ⟨hevents, hinput⟩ := exec_write_ports (s := s.fetched _) ha hex
    exact ⟨hevents.trans (List.append_assoc ..), hinput⟩
  · obtain hd | hd := hd
    · exact exec_outside_ports (s := s.fetched _) (.inl rfl) ha (hexec hd (by simp [State.waits_iff, Nat.not_lt.mpr ha]))
    · exact exec_outside_ports (s := s.fetched _) (.inr rfl) ha (hexec hd (by simp [State.waits_iff]))
  · cases hd : decode (s.mem.read s.ic) with
    | unknown c =>
      cases (step_of_decode_unknown hrun hic rfl hd).symm.trans h
      exact ⟨rfl, rfl⟩
    | known i =>
      have hr (a) : i ≠ .read a := fun e => hread a (e ▸ hd)
      have hw (a) : i ≠ .write a := fun e => hwrite a (e ▸ hd)
      have hex := hexec hd (by simp [State.waits_iff, hr])
      exact ⟨exec_events hex hr hw, exec_input (s := s.fetched _) hex hr⟩

end Sys2Proof.Machine

/-! PROOFS. READ (R90): the value that is stored, the value that is refused, and the location that faults. -/

namespace Sys2Proof.Machine

theorem State.emit_emit (s : State) (e f : Event) :
    (s.emit e).emit f = { s with events := s.events ++ [e, f] } := by
  simp [State.emit]

/-- U4: the one check of the value READ takes (log entry 6). -/
theorem exec_read_not_word {s : State} {a : Nat} {v : Int} {rest : List Int} (ha : a < s.cfg.memSize)
    (hin : s.input = v :: rest) (hv : ¬ inW v) : exec (.read a) s = .refused .inputOutOfRange := by
  rw [exec_read, execRead, State.readAbsolute_inside ha]
  simp only [hin, if_neg hv]

/-- R90, D7: the bounds check comes before the input is looked at. -/
theorem exec_read_outside {s : State} {a : Nat} (ha : s.cfg.memSize ≤ a) :
    exec (.read a) s = .next (s.raise .outOfRangeAccess a) := by
  rw [exec_read, execRead, State.readAbsolute_outside ha]

/-- Settles O16: a word is one write and the advance, from the state in which the two events are out. -/
theorem readStoresTheInput : Obligations.ReadStoresTheInput := by
  refine fun a s hwf => ⟨fun v rest ha hin hv => ?_, fun _ _ => exec_read_not_word, exec_read_outside⟩
  obtain ⟨m, hm, hspec⟩ :=
    State.setMem_advance_spec (s := ((s.setInput rest).emit .inputRequest).emit (.input v)) hwf a v
  refine ⟨m, ?_, hspec⟩
  rw [exec_read_inside ha hin hv, hm, State.emit_emit]
  rfl

end Sys2Proof.Machine

/-! PROOFS. HALT and the dump request (R150, R151). -/

namespace Sys2Proof.Machine

/-- R151, D15: a normal halt requests its two pages; no other status requests a dump. -/
theorem State.dumpRequest_eq_some {s : State} {p q : Nat} :
    s.dumpRequest = some (p, q) ↔ s.status = .haltedNormal p q := by
  unfold State.dumpRequest
  cases s.status <;> simp

/-- Settles O39: the opcode map's arm for 45 splits the operand into the two page fields. -/
theorem haltEndsTheRunWithItsPages : Obligations.HaltEndsTheRunWithItsPages :=
  ⟨exec_halt, fun _ hw => decode_eq_decodeFields hw, fun _ _ _ => State.dumpRequest_eq_some⟩

end Sys2Proof.Machine

/-! PROOFS. Faults (R180 to R192): taking one, which instruction takes which, and what it leaves of the state. -/

namespace Sys2Proof.Machine

/-- Settles O43: of the moves other than reset, only a supplied value is possible in a state that has halted. -/
theorem raiseRecordsTheFaultAndNothingElse : Obligations.RaiseRecordsTheFaultAndNothingElse := by
  refine fun s k v => ⟨rfl, step_of_haltedFault rfl, rfl, rfl, fun mv t h hreset => ?_⟩
  cases State.hostMove_cases h with
  | reset => exact absurd rfl hreset
  | load hidle | start hidle => cases hidle
  | supply => rfl

/-- The faults of the execute part (R184 to R187): kind, info and the state each leaves. -/
inductive ExecFault (s : State) (i : Instr) : FaultKind → Int → State → Prop where
  | outside {a} : dataAddress s i = some a → ¬ s.inMemory a →
      ExecFault s i .outOfRangeAccess a (s.raise .outOfRangeAccess a)
  | zeroDivisor : .divisionByZero ∈ faultsOf i → ExecFault s i .divisionByZero s.ic (s.raise .divisionByZero s.ic)
  | overflow {v} : .accumulatorOverflow ∈ faultsOf i → overflows v →
      ExecFault s i .accumulatorOverflow v ((s.setAcc v).raise .accumulatorOverflow v)

section Faults

variable {i : Instr} {s t : State} {k : FaultKind} {v : Int} {a : Nat}

/-- R181: a running state has no fault record, so one in the next state is the instruction's own. -/
theorem exec_fault (hrun : s.status = .running) (h : exec i s = .next t) (hf : t.status = .haltedFault k v a) :
    ExecFault s i k v t := by
  cases exec_cases h with
  | waits => simp [hrun] at hf
  | outside hd hout => cases hf; exact .outside hd hout
  | zeroDivisor hi => cases hf; exact .zeroDivisor hi
  | overflow hi hv => cases hf; exact .overflow hi hv
  | completed hc => obtain e | ⟨p, q, -, e⟩ := completed_status hc <;> simp [e, hrun] at hf

/-- R187: the table has every fault of the execute part. -/
theorem ExecFault.mem_faultsOf (h : ExecFault s i k v t) : k ∈ faultsOf i := by
  cases h with
  | outside hd => exact outOfRangeAccess_mem_faultsOf hd
  | zeroDivisor hi | overflow hi => exact hi

/-- R188, D24: every instruction with a data address begins with the bounds test of that address. -/
theorem exec_dataAddress_outside {a : Int} (hd : dataAddress s i = some a) (hout : ¬ s.inMemory a) :
    exec i s = .next (s.raise .outOfRangeAccess a) := by
  cases i with
  | loadim | inc | dec | branch | branchneg | branchzero | swap | halt => cases hd
  | _ => cases hd; exact if_neg hout

end Faults

/-- Settles O44: each fault of the execute part is in the table, and the address fault comes first. -/
theorem faultsEachInstructionCanRaise : Obligations.FaultsEachInstructionCanRaise := by
  refine fun i s hrun => ⟨fun t k v a h hf => ?_, fun _ => exec_dataAddress_outside⟩
  have hfault := exec_fault hrun h hf
  refine ⟨hfault.mem_faultsOf, ?_⟩
  rintro rfl
  cases hfault with
  | outside hd hout => exact ⟨hd, hout⟩

/-- Settles O45: of the three faults of the execute part, only the overflow comes after a write, the one to `acc`. -/
theorem faultsArePrecise : Obligations.FaultsArePrecise := by
  intro i s t k v a hrun h hf
  cases exec_fault hrun h hf with
  | outside => exact ⟨rfl, nofun, nofun⟩
  | zeroDivisor => exact ⟨rfl, nofun, fun _ => rfl⟩
  | overflow _ hv => exact ⟨rfl, fun _ => hv.symm, nofun⟩

end Sys2Proof.Machine

/-! PROOFS. Reset, load, start (R210 to R212): the memory the loader leaves, and the state at the first fetch. -/

namespace Sys2Proof.Machine

/-! ### A list of writes -/

/-- The memory after a list of writes, in order. -/
def Memory.writeAll (m : Memory) (prog : List (Nat × Int)) : Memory := prog.foldl (fun m e => m.write e.1 e.2) m

@[simp] theorem Memory.writeAll_cons (m : Memory) (e : Nat × Int) (prog : List (Nat × Int)) :
    m.writeAll (e :: prog) = (m.write e.1 e.2).writeAll prog := rfl

theorem Memory.read_writeAll_unlisted {prog : List (Nat × Int)} {a : Nat} (h : ∀ e ∈ prog, e.1 ≠ a) (m : Memory) :
    (m.writeAll prog).read a = m.read a := by
  induction prog generalizing m with
  | nil => rfl
  | cons e prog ih =>
    obtain ⟨he, hprog⟩ := List.forall_mem_cons.mp h
    rw [writeAll_cons, ih hprog, read_write_other m e.2 he.symm]

/-- A location written once holds what was written: no later write is to the same location. -/
theorem Memory.read_writeAll_of_mem {m : Memory} (hwf : m.wf) {prog : List (Nat × Int)}
    (hdistinct : prog.Pairwise fun e f => e.1 ≠ f.1) : ∀ e ∈ prog, (m.writeAll prog).read e.1 = e.2 := by
  induction prog generalizing m with
  | nil => nofun
  | cons e prog ih =>
    obtain ⟨hne, htail⟩ := List.pairwise_cons.mp hdistinct
    refine List.forall_mem_cons.mpr ⟨?_, ih (write_wf hwf e.1 e.2) htail⟩
    rw [writeAll_cons, read_writeAll_unlisted fun f hf => (hne f hf).symm, read_write_same hwf]

/-- What holds of every entry and of every write holds of every entry after the writes. -/
theorem Memory.forall_mem_writeAll {q : Nat × Int → Prop} {m : Memory} {prog : List (Nat × Int)} (hm : ∀ c ∈ m, q c)
    (hprog : ∀ e ∈ prog, q e) : ∀ c ∈ m.writeAll prog, q c := by
  induction prog generalizing m with
  | nil => exact hm
  | cons e prog ih =>
    obtain ⟨he, hprog⟩ := List.forall_mem_cons.mp hprog
    exact ih (forall_mem_write hm he) hprog

/-! ### The loader and the launch -/

/-- R162: an idle engine takes every write of a word to an existing location, and stays idle. -/
theorem State.hostLoads_eq_writeAll {s : State} {prog : List (Nat × Int)} (hidle : s.status = .idle)
    (hprog : ∀ e ∈ prog, e.1 < s.cfg.memSize ∧ inW e.2) :
    s.hostLoads prog = some { s with mem := s.mem.writeAll prog } := by
  induction prog generalizing s with
  | nil => rfl
  | cons e prog ih =>
    obtain ⟨⟨hloc, hword⟩, hprog⟩ := List.forall_mem_cons.mp hprog
    have hload : s.hostLoad e.1 e.2 = some { s with mem := s.mem.write e.1 e.2 } := if_pos ⟨hidle, hloc, hword⟩
    simp only [State.hostLoads, hload]
    exact ih (s := { s with mem := s.mem.write e.1 e.2 }) hidle hprog

/-- R212: the state at the first fetch is the reset state, running, with the program's writes in memory. -/
theorem State.launch_eq {c : Config} {prog : List (Nat × Int)} (hprog : ∀ e ∈ prog, e.1 < c.memSize ∧ inW e.2) :
    State.launch c prog = some { State.resetWith c with mem := Memory.writeAll [] prog, status := .running } := by
  rw [State.launch, hostLoads_eq_writeAll (s := State.resetWith c) rfl hprog]
  rfl

theorem resetWith_wordInv (c : Config) : (State.resetWith c).WordInv :=
  ⟨nofun, fun _ => inW_zero, inW_zero, inW_zero, nofun⟩

/-- Settles O51: the memory is the loader's writes, into one in which every location holds zero. -/
theorem launchGivesTheStateAtTheFirstFetch : Obligations.LaunchGivesTheStateAtTheFirstFetch := by
  intro c prog hprog hdistinct
  have hempty : Memory.wf [] := ⟨List.Pairwise.nil, nofun⟩
  refine ⟨_, State.launch_eq hprog, rfl, rfl, rfl, rfl, rfl, rfl, Memory.read_writeAll_of_mem hempty hdistinct,
    fun a ha => Memory.read_writeAll_unlisted ha [], ?_⟩
  exact { resetWith_wordInv c with cells := Memory.forall_mem_writeAll nofun fun e he => (hprog e he).2 }

end Sys2Proof.Machine
